-- ==== Sys2Proof/Word.lean ====
section
/-! DEFINITION. The words of the block: a u32 register or pixel, a byte of pixel memory, a channel (R9, R11, R20). -/

namespace Sys2Proof

/-- A 32-bit register, command word or ARGB pixel (R9, R20). -/
abbrev Word := BitVec 32

/-- A byte of pixel memory, and a channel value in [0,255] (R9, R65). -/
abbrev Byte := BitVec 8

end Sys2Proof
end

