-- ==== Sys2Proof/Config.lean ====
section
/-! DEFINITION. What an implementation fixes: the constants of R9, R10 and R20, and the launch parameters of R10 as plain data.
A launch stands in `State` (so that a claim about every state is a claim about every parameter) and no step changes it. -/

namespace Sys2Proof

/-- Pixel memory spans 2^32 bytes (R60, `ADDR_WIDTH` = 32). -/
def Config.spaceSize : Nat := 2 ^ 32

/-- The register window is 64 bytes (R20). -/
def Config.windowBytes : Nat := 64

/-- What a byte of pixel memory that no cell lists holds. DESIGN CHOICE (log 5), unsafe: the spec gives pixel memory no
reset value (R80). -/
def Config.unlistedByte : Byte := 0#8

/-- `PIXEL_BYTE_ORDER` (R10, R64). -/
inductive ByteOrder where
  | le
  | be
deriving DecidableEq, Repr

/-- The two kinds of access `Mem.admits` is asked about (R66, R67). -/
inductive AccessKind where
  | read
  | write
deriving DecidableEq, Repr

/-- One piece of the launch memory `Mem`: bytes `base` to `base + size - 1` exist, and which accesses to them are admitted
(R10, R69). DESIGN CHOICE (log 1), safe: `Mem` is a list of such pieces. -/
structure Region where
  base     : Nat
  size     : Nat
  readable : Bool
  writable : Bool
deriving DecidableEq, Repr

/-- `MASK_BRIGHT_FN` (R10, R204): the default `trunc(m*c/255)`, or a replacement given as a table of the 65536 values, the
value for mask alpha m and channel c at place 256*m + c. DESIGN CHOICE (log 13), safe: the table form. -/
inductive MaskBright where
  | standard
  | table (values : List Byte)
deriving DecidableEq, Repr

/-- The parameters of R10 a model takes: fixed for the life of a machine. -/
structure Launch where
  /-- `REG_BASE`, OPEN in the spec (R10, R20). -/
  regBase    : Nat
  /-- `PIXEL_BYTE_ORDER`, LE by default (R64). -/
  byteOrder  : ByteOrder
  /-- `Mem`, OPEN in the spec (R69). -/
  regions    : List Region
  /-- `MASK_BRIGHT_FN` (R204). -/
  maskBright : MaskBright
deriving DecidableEq, Repr

/-- The launch `State.reset` has. LE and the brightness formula are the spec's defaults (R10); REG_BASE = 0 and a `Mem` that
admits every word of pixel memory are DESIGN CHOICES (log 7), because R10 leaves both OPEN. -/
def Launch.default : Launch where
  regBase := 0
  byteOrder := .le
  regions := [{ base := 0, size := Config.spaceSize, readable := true, writable := true }]
  maskBright := .standard

end Sys2Proof
end

