-- ==== Sys2Proof/Syntax.lean ====
section
/-! DEFINITION. The ten command forms (R96, spec/opcode_table.json), one constructor each, and the spelling of a command in a
host program (R102). -/

namespace Sys2Proof

/-- A decoded command. `sBit` and `eBit` are the region-present bits S and E (R92); `alpha` is PARAM[7:0] of BLENDL and
`scale` the whole PARAM of OPAC and BRIGHT (R95). Every other operand comes from the latch (R99). -/
inductive Instr where
  | blend
  | blendl (alpha : BitVec 8)
  | blendbuf (sBit eBit : Bool)
  | grad (sBit eBit : Bool)
  | blendc (sBit eBit : Bool)
  | opac (sBit eBit : Bool) (scale : BitVec 9)
  | opacm (sBit eBit : Bool)
  | bright (sBit eBit : Bool) (scale : BitVec 9)
  | brightm (sBit eBit : Bool)
  | fill (sBit eBit : Bool)
deriving DecidableEq, Repr

/-- The ten names an assembler accepts (R102). -/
inductive Mnemonic where
  | BLEND | BLENDL | BLENDBUF | GRAD | BLENDC | OPAC | OPACM | BRIGHT | BRIGHTM | FILL
deriving DecidableEq, Repr

/-- A command as a host program spells it, `NAME[.rg] [#imm]` (R102): the suffix `.rg` as its two letters, and the immediate
as the number written. It may be ill formed; `CmdSpelling.check` says so. -/
structure CmdSpelling where
  name    : Mnemonic
  sSuffix : Bool
  eSuffix : Bool
  imm     : Option Int
deriving DecidableEq, Repr

end Sys2Proof
end

