-- ==== Sys2Proof/WellFormed.lean ====
section
/-! DEFINITION. Which terms are well formed. A decoded command is well formed by its types (a weight is 8 bits, a scale 9
bits, R95), so the checks stand where ill-formed terms exist: the spelling of a command (R102) and the launch parameters
(R10). -/

namespace Sys2Proof

/-- Why an assembler refuses a spelling (R102). -/
inductive SpellingError where
  /-- A region suffix on BLEND or BLENDL. -/
  | suffixNotAllowed
  /-- `#imm` missing on BLENDL, OPAC or BRIGHT. -/
  | immMissing
  /-- `#imm` outside 0..255 (BLENDL) or 0..511 (OPAC, BRIGHT). -/
  | immOutOfRange
  /-- `#imm` on a form that has no PARAM. -/
  | immNotAllowed
deriving DecidableEq, Repr

/-- The forms that take a region suffix: all but BLEND and BLENDL (R92, R102). -/
def Mnemonic.takesRegion : Mnemonic → Bool
  | .BLEND => false
  | .BLENDL => false
  | .BLENDBUF => true
  | .GRAD => true
  | .BLENDC => true
  | .OPAC => true
  | .OPACM => true
  | .BRIGHT => true
  | .BRIGHTM => true
  | .FILL => true

/-- The greatest `#imm` a form takes, or none where `#imm` is forbidden (R95, R102). -/
def Mnemonic.immMax : Mnemonic → Option Int
  | .BLENDL => some 255
  | .OPAC => some 511
  | .BRIGHT => some 511
  | .BLEND => none
  | .BLENDBUF => none
  | .GRAD => none
  | .BLENDC => none
  | .OPACM => none
  | .BRIGHTM => none
  | .FILL => none

/-- The assembler's refusal of a spelling that would give an illegal word (R102). -/
def CmdSpelling.check (c : CmdSpelling) : Except SpellingError Unit :=
  if c.name.takesRegion = false ∧ (c.sSuffix = true ∨ c.eSuffix = true) then .error .suffixNotAllowed
  else
    match c.name.immMax, c.imm with
    | none, none => .ok ()
    | none, some _ => .error .immNotAllowed
    | some _, none => .error .immMissing
    | some top, some k => if 0 ≤ k ∧ k ≤ top then .ok () else .error .immOutOfRange

/-- A spelling the assembler accepts. -/
def CmdSpelling.wf (c : CmdSpelling) : Bool :=
  match c.check with
  | .ok _ => true
  | .error _ => false

/-- A region of `Mem` is made of whole words inside pixel memory (R60, R69). -/
def Region.wf (r : Region) : Bool :=
  r.base % 4 == 0 && r.size % 4 == 0 && decide (r.base + r.size ≤ Config.spaceSize)

/-- `REG_BASE` is 64-byte aligned (R10) and every region of `Mem` is well formed. -/
def Launch.wf (l : Launch) : Bool :=
  l.regBase % Config.windowBytes == 0 && l.regions.all Region.wf

end Sys2Proof
end

