-- ==== Sys2Proof/Decode.lean ====
section
/-! DEFINITION. The command word: the decoder, total on every 32-bit word and refusing by name (R97, R98), and after it the
encoder (R90, R102). -/

namespace Sys2Proof

/-- Why a word is no command. The spec has the one outcome ILLEGAL for every word of R98. -/
inductive Reject where
  | illegal
deriving DecidableEq, Repr

/-- w[4] = S, the region-start-present bit (R92). -/
def fieldS (w : Word) : Bool := w.getLsbD 4

/-- w[5] = E, the region-end-present bit (R92). -/
def fieldE (w : Word) : Bool := w.getLsbD 5

/-- PARAM = w[16:8] (R95). -/
def fieldParam (w : Word) : BitVec 9 := w.extractLsb' 8 9

/-- PARAM[7:0], the weight of BLENDL (R154). -/
def fieldAlpha (w : Word) : BitVec 8 := w.extractLsb' 8 8

/-- One row of R97: a word matches when `w AND mask == pattern`, and `build` reads its free fields. -/
structure DecodeRow where
  pattern : Word
  mask    : Word
  build   : Word → Instr

/-- A word matches a row (R97). -/
def DecodeRow.matchesWord (r : DecodeRow) (w : Word) : Bool := (w &&& r.mask) == r.pattern

/-- The table of R97, in its order. -/
def decodeRows : List DecodeRow :=
  [ ⟨0x00000001#32, 0xFFFFFFFF#32, fun _ => .blend⟩,
    ⟨0x00000002#32, 0xFFFF00FF#32, fun w => .blendl (fieldAlpha w)⟩,
    ⟨0x00000003#32, 0xFFFFFFCF#32, fun w => .blendbuf (fieldS w) (fieldE w)⟩,
    ⟨0x00000004#32, 0xFFFFFFCF#32, fun w => .grad (fieldS w) (fieldE w)⟩,
    ⟨0x00000005#32, 0xFFFFFFCF#32, fun w => .blendc (fieldS w) (fieldE w)⟩,
    ⟨0x00000006#32, 0xFFFE00CF#32, fun w => .opac (fieldS w) (fieldE w) (fieldParam w)⟩,
    ⟨0x00000046#32, 0xFFFFFFCF#32, fun w => .opacm (fieldS w) (fieldE w)⟩,
    ⟨0x00000007#32, 0xFFFE00CF#32, fun w => .bright (fieldS w) (fieldE w) (fieldParam w)⟩,
    ⟨0x00000047#32, 0xFFFFFFCF#32, fun w => .brightm (fieldS w) (fieldE w)⟩,
    ⟨0x00000008#32, 0xFFFFFFCF#32, fun w => .fill (fieldS w) (fieldE w)⟩ ]

/-- `decode(w)` of R97: the row that matches, or ILLEGAL if none does. -/
def decode (w : Word) : Except Reject Instr :=
  match decodeRows.find? (fun r => r.matchesWord w) with
  | some r => .ok (r.build w)
  | none => .error .illegal

/-- The word `OPC | M<<6 | E<<5 | S<<4 | PARAM<<8` (R90, R102): bits 31:17 and bit 7 are 0. -/
def assembleWord (param : BitVec 9) (m e s : Bool) (opc : BitVec 4) : Word :=
  (param ++ (0#1 ++ (BitVec.ofBool m ++ (BitVec.ofBool e ++ (BitVec.ofBool s ++ opc))))).setWidth 32

/-- The command word of an instruction (R96, R97). -/
def encode : Instr → Word
  | .blend => assembleWord 0#9 false false false 0x1#4
  | .blendl alpha => assembleWord (alpha.setWidth 9) false false false 0x2#4
  | .blendbuf sBit eBit => assembleWord 0#9 false eBit sBit 0x3#4
  | .grad sBit eBit => assembleWord 0#9 false eBit sBit 0x4#4
  | .blendc sBit eBit => assembleWord 0#9 false eBit sBit 0x5#4
  | .opac sBit eBit scale => assembleWord scale false eBit sBit 0x6#4
  | .opacm sBit eBit => assembleWord 0#9 true eBit sBit 0x6#4
  | .bright sBit eBit scale => assembleWord scale false eBit sBit 0x7#4
  | .brightm sBit eBit => assembleWord 0#9 true eBit sBit 0x7#4
  | .fill sBit eBit => assembleWord 0#9 false eBit sBit 0x8#4

/-- The command an accepted spelling names (R102). -/
def CmdSpelling.toInstr (c : CmdSpelling) : Except SpellingError Instr :=
  match c.check with
  | .error e => .error e
  | .ok _ =>
    let k := c.imm.getD 0
    match c.name with
    | .BLEND => .ok .blend
    | .BLENDL => .ok (.blendl (BitVec.ofInt 8 k))
    | .BLENDBUF => .ok (.blendbuf c.sSuffix c.eSuffix)
    | .GRAD => .ok (.grad c.sSuffix c.eSuffix)
    | .BLENDC => .ok (.blendc c.sSuffix c.eSuffix)
    | .OPAC => .ok (.opac c.sSuffix c.eSuffix (BitVec.ofInt 9 k))
    | .OPACM => .ok (.opacm c.sSuffix c.eSuffix)
    | .BRIGHT => .ok (.bright c.sSuffix c.eSuffix (BitVec.ofInt 9 k))
    | .BRIGHTM => .ok (.brightm c.sSuffix c.eSuffix)
    | .FILL => .ok (.fill c.sSuffix c.eSuffix)

/-- The host's question: the instruction this decoder reads from the low `nbits` bits of `w`, the bits above being 0. A
command is one 32-bit word (R90, R100). -/
def decodeTableWord (nbits w : Nat) : Option Instr :=
  match decode (BitVec.ofNat 32 (w % 2 ^ nbits)) with
  | .ok i => some i
  | .error _ => none

end Sys2Proof
end

