-- ==== Sys2Proof/Machine/State.lean ====
section
/-! DEFINITION. The state of one block and its pixel memory (R45), its launch parameters (R10), the host's pending moves, and
the reasons a step can stop (R238). -/

namespace Sys2Proof.Machine

/-- Pixel memory as a list of (address, byte) cells in one canonical form (`Memory.wf`): addresses strictly rising and below
2^32, and no cell that holds what an unlisted address holds (R60, R65). -/
abbrev Memory := List Host.Cell

/-- STATUS.ERR, the outcome of the last completed command (R28). -/
inductive ErrCode where
  | ok
  | illegal
  | argDst
  | argSrc
deriving DecidableEq, Repr

/-- The fields of STATUS that hold state (R25); the reserved bits read 0 and hold none. -/
structure Status where
  busy : Bool
  done : Bool
  ign  : Bool
  err  : ErrCode
deriving DecidableEq, Repr

/-- The eight operand registers (R30 to R37). START and END are read as s32. -/
structure OperandRegs where
  color1   : Word
  color2   : Word
  startPos : Word
  endPos   : Word
  dstBase  : Word
  dstLen   : Word
  srcBase  : Word
  srcLen   : Word
deriving DecidableEq, Repr

/-- The command latch L (R40): the command word and the operand registers at acceptance. -/
structure Latch where
  cmd : Word
  ops : OperandRegs
deriving DecidableEq, Repr

/-- One free draw of R261: the pixel `index` of the target had been written when a reset discarded the command. `value` is
what it then holds if the spec gives the command's own value none (a partial overlap, R79); otherwise the command's value
stands and `value` is not used (log 4). -/
structure PixelDraw where
  index : Nat
  value : Word
deriving DecidableEq, Repr

/-- What the host may do (R240, R241). Register accesses carry a host address and a width in bits; the memory accesses are
those of R64 and R101. -/
inductive HostMove where
  /-- Read the register window (R20 to R23). -/
  | readReg (addr width : Nat)
  /-- Write the register window (R24, R27, R38). -/
  | writeReg (addr width : Nat) (value : Word)
  /-- `ldm`: read one pixel word (R101). `expected` is the statement's imm32, kept for the host's check; the read does not
  depend on it (log 15). -/
  | loadPixel (addr expected : Word)
  /-- `stm`: write one pixel word (R101). -/
  | storePixel (addr value : Word)
  /-- Read one byte of pixel memory (R64). -/
  | loadByte (addr : Word)
  /-- Write one byte of pixel memory (R60, R64). -/
  | storeByte (addr : Word) (value : Byte)
  /-- The `wait` loop: poll STATUS until BUSY reads 0 (R103). -/
  | wait
  /-- The reset signal (R260, R261). `draws` names the pixels that a command discarded by the reset had already written;
  `junk` is what the latch holds afterwards. Both are free: the spec leaves them open (log 4). -/
  | reset (draws : List PixelDraw) (junk : Latch)
deriving DecidableEq, Repr

/-- One turn: the host's, with its move, or the block's (R240). -/
inductive Move where
  | host (m : HostMove)
  | block
deriving DecidableEq, Repr

/-- The cases for which the spec says `fault Undefined(reason)` (R12, R238). -/
inductive Undefined where
  /-- A read buffer and a written buffer with different bases whose accessed ranges meet (R79). -/
  | partialOverlap
  /-- The interpolator asked for an empty source range (R134). -/
  | remapZeroRange
deriving DecidableEq, Repr

/-- Why the machine stops. A run ends at a fault: this is the fault mark of R45 that no step clears (log 6). -/
inductive Fault where
  /-- `fault Undefined(why)` of R12. `partialOverlap` is raised by BLENDBUF, OPACM and BRIGHTM; `remapZeroRange` by the interpolator alone, never by a command (R134). Safe: the model stops where the
  spec gives no value (log 10). -/
  | undefined (why : Undefined)
  /-- A command would make an access `Mem` does not admit: its execution step has no successor (R69). Raised by the eight
  region commands. Safe: nothing is claimed of a stuck block (DEDUCED, log 11). -/
  | stuck
deriving DecidableEq, Repr

/-- Why the model gives a turn no meaning. -/
inductive Refusal where
  /-- An instruction whose meaning is not written: raised by `exec` only. Safe. -/
  | notModelled (mnemonic : String)
  /-- A register access that is not 32 bits wide or not 4-byte aligned (R21). Raised by the host's register moves. Safe. -/
  | registerAccess
  /-- A host register access outside this block's 64-byte window (R20): it reaches no register of this block. Safe. -/
  | outsideWindow
  /-- The host touches a byte of a buffer it has handed over while BUSY == 1: it has no such move (R76, R241, U7). Safe here,
  but runs of a host that breaks the duty are not modelled (the spec says so). -/
  | hostDuty
  /-- A host access to pixel memory that `Mem` does not admit (R10). Raised by the host's memory moves. Safe. -/
  | hostNotAdmitted
  /-- A host pixel-word access at an address that is not 4-aligned: no pixel word lies there (R61, R101). Safe. -/
  | hostUnaligned
deriving DecidableEq, Repr

/-- The state of the block (R45), its launch (R10), and the two fields of the model: the turns still to come (`script`) and
the value the host's last read returned (`received`). -/
structure State where
  cmd      : Word
  status   : Status
  result   : Word
  regs     : OperandRegs
  latch    : Latch
  mem      : Memory
  launch   : Launch
  script   : List Move
  received : Word
deriving DecidableEq, Repr

/-- STATUS after reset (R25, R44). -/
def Status.reset : Status := { busy := false, done := false, ign := false, err := .ok }

/-- The operand registers after reset (R20, R44). -/
def OperandRegs.reset : OperandRegs :=
  { color1 := 0#32, color2 := 0#32, startPos := 0#32, endPos := 0#32,
    dstBase := 0#32, dstLen := 0#32, srcBase := 0#32, srcLen := 0#32 }

/-- The latch of `State.reset`. DESIGN CHOICE (log 3), unsafe: R40 leaves it unspecified. -/
def Latch.reset : Latch := { cmd := 0#32, ops := OperandRegs.reset }

/-- The machine right after reset (R44, R260), with the launch of `Launch.default`, nothing listed in memory (log 5) and no
turn of the host pending. -/
def State.reset : State :=
  { cmd := 0#32, status := Status.reset, result := 0#32, regs := OperandRegs.reset, latch := Latch.reset,
    mem := [], launch := Launch.default, script := [], received := 0#32 }

end Sys2Proof.Machine
end

