-- ==== Sys2Proof/Machine/Flags.lean ====
section
/-! DEFINITION. STATUS: its 32-bit view and every update of its fields (R24 to R28, R43). The block has no other flags (R13). -/

namespace Sys2Proof.Machine

/-- The 2-bit code of an outcome (R28). -/
def ErrCode.bits : ErrCode → BitVec 2
  | .ok => 0#2
  | .illegal => 1#2
  | .argDst => 2#2
  | .argSrc => 3#2

/-- What a read of STATUS returns (R25): BUSY in bit 0, DONE in bit 1, IGN in bit 2, ERR in bits 5:4, every reserved bit 0. -/
def Status.word (st : Status) : Word :=
  (st.err.bits ++ (0#1 ++ (BitVec.ofBool st.ign ++ (BitVec.ofBool st.done ++ BitVec.ofBool st.busy)))).setWidth 32

/-- Acceptance of a command: BUSY 1, DONE 0, ERR 0, IGN kept (R24). -/
def Status.accepted (st : Status) : Status := { st with busy := true, done := false, err := .ok }

/-- Completion of a command with an outcome: ERR, BUSY 0, DONE 1, IGN kept (R43). -/
def Status.completed (e : ErrCode) (st : Status) : Status := { st with busy := false, done := true, err := e }

/-- A CMD write while BUSY is dropped and sets IGN (R24). -/
def Status.dropped (st : Status) : Status := { st with ign := true }

/-- A host write of w to STATUS clears IGN if w[2] is 1 and has no other effect (R27). -/
def Status.written (w : Word) (st : Status) : Status := { st with ign := st.ign && !w.getLsbD 2 }

end Sys2Proof.Machine
end

