-- ==== Sys2Proof/Machine/Operands.lean ====
section
/-! DEFINITION. The operand forms: buffer descriptors (R61 to R63), which command uses which buffer (R99, R232), raw region
bounds (R92), the region normalizer (R125 to R129) and the overlap test (R79). -/

namespace Sys2Proof.Machine

/-- A buffer descriptor (BASE, LEN) (R61). -/
structure Descriptor where
  base : Word
  len  : Word
deriving DecidableEq, Repr

/-- The destination / target buffer (R34, R35). -/
def OperandRegs.dst (o : OperandRegs) : Descriptor := ⟨o.dstBase, o.dstLen⟩

/-- The source / mask buffer (R36, R37). -/
def OperandRegs.src (o : OperandRegs) : Descriptor := ⟨o.srcBase, o.srcLen⟩

/-- `count(LEN) = LEN / 4`, rounded down (R61). -/
def Descriptor.count (d : Descriptor) : Nat := d.len.toNat / 4

/-- `valid(BASE, LEN)` of R62. -/
def Descriptor.valid (d : Descriptor) : Bool :=
  d.base != 0#32 && d.base.toNat % 4 == 0 && decide (d.base.toNat + d.len.toNat ≤ Config.spaceSize)

/-- The address of pixel i, `BASE + 4*i` (R63). -/
def Descriptor.pixelAddr (d : Descriptor) (i : Nat) : Nat := d.base.toNat + 4 * i

/-- Address a lies in the descriptor's range of LEN bytes (R76). -/
def Descriptor.covers (d : Descriptor) (a : Nat) : Bool :=
  decide (d.base.toNat ≤ a) && decide (a < d.base.toNat + d.len.toNat)

/-- The commands that check and write the destination descriptor: all but BLEND and BLENDL (R232). -/
def usesDst : Instr → Bool
  | .blend => false
  | .blendl _ => false
  | .blendbuf _ _ => true
  | .grad _ _ => true
  | .blendc _ _ => true
  | .opac _ _ _ => true
  | .opacm _ _ => true
  | .bright _ _ _ => true
  | .brightm _ _ => true
  | .fill _ _ => true

/-- The commands that check and read the source descriptor: BLENDBUF, OPACM and BRIGHTM (R170, R232). -/
def usesSrc : Instr → Bool
  | .blend => false
  | .blendl _ => false
  | .blendbuf _ _ => true
  | .grad _ _ => false
  | .blendc _ _ => false
  | .opac _ _ _ => false
  | .opacm _ _ => true
  | .bright _ _ _ => false
  | .brightm _ _ => true
  | .fill _ _ => false

/-- `raw_start`: START as s32 if S is 1, else 0 (R92). -/
def rawStart (sBit : Bool) (o : OperandRegs) : Int := if sBit then o.startPos.toInt else 0

/-- `raw_end`: END as s32 if E is 1, else -1 (R92). -/
def rawEnd (eBit : Bool) (o : OperandRegs) : Int := if eBit then o.endPos.toInt else -1

/-- Step 1 of R126: a negative bound has `width` added once. -/
def fromEnd (width : Nat) (bound : Int) : Int := if bound < 0 then bound + width else bound

/-- The region normalizer of R126; `none` is EMPTY. -/
def resolve (width : Nat) (first last : Int) : Option (Nat × Nat) :=
  let s := max (fromEnd width first) 0
  let e := min (fromEnd width last) ((width : Int) - 1)
  if (width : Int) ≤ s then none
  else if e < s then none
  else some (s.toNat, e.toNat)

/-- The pixel count a region is normalized against: the destination's, or the lesser of both counts where the command reads
a source buffer (R170). -/
def effectiveWidth (readsSrc : Bool) (o : OperandRegs) : Nat :=
  if readsSrc then min o.dst.count o.src.count else o.dst.count

/-- The S bit of a command; false for the two that take no region (R92). -/
def sBitOf : Instr → Bool
  | .blend => false
  | .blendl _ => false
  | .blendbuf sBit _ => sBit
  | .grad sBit _ => sBit
  | .blendc sBit _ => sBit
  | .opac sBit _ _ => sBit
  | .opacm sBit _ => sBit
  | .bright sBit _ _ => sBit
  | .brightm sBit _ => sBit
  | .fill sBit _ => sBit

/-- The E bit of a command; false for the two that take no region (R92). -/
def eBitOf : Instr → Bool
  | .blend => false
  | .blendl _ => false
  | .blendbuf _ eBit => eBit
  | .grad _ eBit => eBit
  | .blendc _ eBit => eBit
  | .opac _ eBit _ => eBit
  | .opacm _ eBit => eBit
  | .bright _ eBit _ => eBit
  | .brightm _ eBit => eBit
  | .fill _ eBit => eBit

/-- The region a command resolves (R170): its effective width and raw bounds through the normalizer. -/
def commandRegion (i : Instr) (o : OperandRegs) : Option (Nat × Nat) :=
  resolve (effectiveWidth (usesSrc i) o) (rawStart (sBitOf i) o) (rawEnd (eBitOf i) o)

/-- The overlap test of R79 for the resolved region first..last: different bases and accessed ranges that meet. -/
def partialOverlap (o : OperandRegs) (first last : Nat) : Bool :=
  o.srcBase != o.dstBase &&
    (decide (o.src.pixelAddr first < o.dst.pixelAddr last + 4) &&
      decide (o.dst.pixelAddr first < o.src.pixelAddr last + 4))

end Sys2Proof.Machine
end

