-- ==== Sys2Proof/Machine/Pixel.lean ====
section
/-! DEFINITION. The leaf units on pixels and channels: the ARGB codec (R120 to R124), the interpolator (R130 to R137), the
per-pixel blends (R150, R153), the gradient pixel (R173) and the scale functions (R200). They hold no state. -/

namespace Sys2Proof.Machine

/-- The four channels of a pixel, A in the most significant byte (R120). -/
structure Channels where
  a : Byte
  r : Byte
  g : Byte
  b : Byte
deriving DecidableEq, Repr

/-- Unpack by fixed shifts: A at 24, R at 16, G at 8, B at 0 (R121). -/
def unpack (p : Word) : Channels :=
  { a := p.extractLsb' 24 8, r := p.extractLsb' 16 8, g := p.extractLsb' 8 8, b := p.extractLsb' 0 8 }

/-- Pack of R122. -/
def pack (c : Channels) : Word :=
  (c.a.setWidth 32 <<< 24) ||| (c.r.setWidth 32 <<< 16) ||| (c.g.setWidth 32 <<< 8) ||| c.b.setWidth 32

/-- The alpha channel of a pixel (R121). -/
def alphaOf (p : Word) : Byte := (unpack p).a

/-- `tdiv` of R12 and R132: division truncating toward zero. -/
def tdiv (n d : Int) : Int := n.tdiv d

/-- The value of R130: the product is formed in full and divided once (R131), on unbounded integers (R11, R136). -/
def remapValue (v fmin fmax tmin tmax : Int) : Int := tmin + tdiv ((v - fmin) * (tmax - tmin)) (fmax - fmin)

/-- The interpolator as a unit: R130, with the guard of R134 where the source range is empty. -/
def remap (v fmin fmax tmin tmax : Int) : Except Undefined Int :=
  if fmax = fmin then .error .remapZeroRange else .ok (remapValue v fmin fmax tmin tmax)

/-- A computed lane as a u8. Every lane the commands compute is in [0,255] (R122), so nothing is cut off. -/
def lane (x : Int) : Byte := BitVec.ofInt 8 x

/-- A u8 as an integer. -/
def chan (c : Byte) : Int := (c.toNat : Int)

/-- One RGB lane of `blend_pair`: two terms, each truncated on its own (R150). -/
def blendLane (a2 dst src : Byte) : Byte :=
  lane (remapValue (255 - chan a2) 0 255 0 (chan dst) + remapValue (chan a2) 0 255 0 (chan src))

/-- The alpha lane of `blend_pair` (R150). -/
def blendAlpha (a1 a2 : Byte) : Byte :=
  lane (min (chan a1 + remapValue ((255 - chan a1) * chan a2) 0 (255 * 255) 0 255) 255)

/-- `blend_pair(c1, c2)`: source c2 over destination c1 (R150). -/
def blendPair (c1 c2 : Word) : Word :=
  let d := unpack c1
  let s := unpack c2
  if s.a = 0#8 then c1
  else pack { a := blendAlpha d.a s.a, r := blendLane s.a d.r s.r, g := blendLane s.a d.g s.g, b := blendLane s.a d.b s.b }

/-- One lane of `blend_linear` (R153). -/
def linearLane (w ca cb : Byte) : Byte := lane (remapValue (chan w) 0 255 (chan cb) (chan ca))

/-- `blend_linear(ca, cb, w)`: a cross-fade of all four lanes (R153). -/
def blendLinear (ca cb : Word) (w : Byte) : Word :=
  let x := unpack ca
  let y := unpack cb
  pack { a := linearLane w x.a y.a, r := linearLane w x.r y.r, g := linearLane w x.g y.g, b := linearLane w x.b y.b }

/-- One lane of `grad_pixel` (R173). -/
def gradLane (k n : Nat) (c1 c2 : Byte) : Byte := lane (remapValue k 0 n (chan c1) (chan c2))

/-- `grad_pixel(c1, c2, k, n)` (R173). -/
def gradPixel (c1 c2 : Word) (k n : Nat) : Word :=
  let x := unpack c1
  let y := unpack c2
  pack { a := gradLane k n x.a y.a, r := gradLane k n x.r y.r, g := gradLane k n x.g y.g, b := gradLane k n x.b y.b }

/-- `op_down(k, x)` of R200, k in [0,255]. -/
def opDown (k : Int) (x : Byte) : Byte := lane (remapValue k 0 255 0 (chan x))

/-- `br_down(x, k)` of R200, k in [0,255]. -/
def brDown (x : Byte) (k : Int) : Byte := lane (remapValue (chan x) 0 255 0 k)

/-- `up(x, k)` of R200, k in [256,511]. -/
def scaleUp (x : Byte) (k : Int) : Byte :=
  lane (min (chan x + remapValue (chan x * (k - 255)) 0 (255 * 256) 0 255) 255)

/-- `mask_f(m, x)` of R200: the factor is the mask pixel's alpha. -/
def maskF (m x : Byte) : Byte := lane (remapValue (chan m) 0 255 0 (chan x))

/-- The scaled alpha of OPAC (R201). -/
def opacityLane (scale : BitVec 9) (x : Byte) : Byte :=
  if scale.toNat ≤ 255 then opDown scale.toNat x else scaleUp x scale.toNat

/-- A scaled R, G or B lane of BRIGHT (R203). -/
def brightnessLane (scale : BitVec 9) (x : Byte) : Byte :=
  if scale.toNat ≤ 255 then brDown x scale.toNat else scaleUp x scale.toNat

/-- `MASK_BRIGHT_FN` (R204): the launch's table where it has a value, else the default of R200. -/
def maskBrightLane (fn : MaskBright) (m x : Byte) : Byte :=
  match fn with
  | .standard => maskF m x
  | .table values => values.getD (256 * m.toNat + x.toNat) (maskF m x)

/-- OPAC on one pixel: R, G and B are untouched (R201). -/
def opacityPixel (scale : BitVec 9) (p : Word) : Word :=
  pack { unpack p with a := opacityLane scale (unpack p).a }

/-- OPACM on one pixel with one mask pixel: only the mask's alpha is consulted (R202). -/
def maskOpacityPixel (p m : Word) : Word :=
  pack { unpack p with a := maskF (alphaOf m) (unpack p).a }

/-- BRIGHT on one pixel: alpha is untouched (R203). -/
def brightnessPixel (scale : BitVec 9) (p : Word) : Word :=
  pack { a := (unpack p).a, r := brightnessLane scale (unpack p).r,
         g := brightnessLane scale (unpack p).g, b := brightnessLane scale (unpack p).b }

/-- BRIGHTM on one pixel with one mask pixel (R204). -/
def maskBrightnessPixel (fn : MaskBright) (p m : Word) : Word :=
  pack { a := (unpack p).a, r := maskBrightLane fn (alphaOf m) (unpack p).r,
         g := maskBrightLane fn (alphaOf m) (unpack p).g, b := maskBrightLane fn (alphaOf m) (unpack p).b }

end Sys2Proof.Machine
end

