-- ==== Sys2Proof/Machine/Ops.lean ====
section
/-! DEFINITION. The named operations on memory, registers and STATUS: pixel memory (R60 to R69), the register window (R20 to
R38), acceptance (R24), completion (R43), errors (R233) and the shape every region command has (R170). The block has no traps
and no return from one (R235, R236): `raiseError` is the whole of taking an error. -/

namespace Sys2Proof.Machine

/-! ### Bytes of pixel memory -/

/-- `bytes(a)` (R65). -/
def Memory.read : Memory → Nat → Byte
  | [], _ => Config.unlistedByte
  | (x, c) :: rest, a => if x = a then c else Memory.read rest a

/-- The cells without the cell of address a. -/
def Memory.unlist (m : Memory) (a : Nat) : Memory := m.filter (fun c => c.1 != a)

/-- The cell (a, v) put before the first cell of a higher address. -/
def Memory.place : Memory → Nat → Byte → Memory
  | [], a, v => [(a, v)]
  | (x, c) :: rest, a, v => if a < x then (a, v) :: (x, c) :: rest else (x, c) :: Memory.place rest a v

/-- A write of one byte; writing what an unlisted address holds unlists the address, so equal memories are equal lists. -/
def Memory.write (m : Memory) (a : Nat) (v : Byte) : Memory :=
  if v = Config.unlistedByte then m.unlist a else (m.unlist a).place a v

/-- The canonical form from address `low` on. -/
def Memory.wfFrom : Nat → Memory → Bool
  | _, [] => true
  | low, (a, v) :: rest =>
    decide (low ≤ a) && decide (a < Config.spaceSize) && v != Config.unlistedByte && Memory.wfFrom (a + 1) rest

/-- The canonical form: addresses strictly rising and below 2^32, no cell that holds what an unlisted address holds. -/
def Memory.wf (m : Memory) : Bool := Memory.wfFrom 0 m

/-! ### Pixel words -/

/-- The word at address a, bytes in `PIXEL_BYTE_ORDER` (R64, R66). -/
def Memory.readWord (order : ByteOrder) (m : Memory) (a : Nat) : Word :=
  match order with
  | .le => m.read (a + 3) ++ (m.read (a + 2) ++ (m.read (a + 1) ++ m.read a))
  | .be => m.read a ++ (m.read (a + 1) ++ (m.read (a + 2) ++ m.read (a + 3)))

/-- Byte k of a pixel in memory, k from 0 to 3: the table of R64. -/
def pixelByte (order : ByteOrder) (v : Word) (k : Nat) : Byte :=
  match order with
  | .le => v.extractLsb' (8 * k) 8
  | .be => v.extractLsb' (8 * (3 - k)) 8

/-- The word v stored at address a: its four bytes and no others (R64, R67). -/
def Memory.writeWord (order : ByteOrder) (m : Memory) (a : Nat) (v : Word) : Memory :=
  (((m.write a (pixelByte order v 0)).write (a + 1) (pixelByte order v 1)).write (a + 2) (pixelByte order v 2)).write
    (a + 3) (pixelByte order v 3)

/-- A region admits an access of `size` bytes at a. -/
def Region.admits (r : Region) (k : AccessKind) (a size : Nat) : Bool :=
  decide (r.base ≤ a) && decide (a + size ≤ r.base + r.size) &&
    match k with
    | .read => r.readable
    | .write => r.writable

/-- `Mem.admits(kind, addr, 4)` (R66, R67, R69): some region of the launch memory admits the word. -/
def admits (l : Launch) (k : AccessKind) (a : Nat) : Bool := l.regions.any (fun r => Region.admits r k a 4)

/-- `MemRead(addr, 4)` (R66); an access `Mem` does not admit leaves the block stuck (R69). -/
def memRead (l : Launch) (m : Memory) (a : Nat) : Except Fault Word :=
  if admits l .read a then .ok (m.readWord l.byteOrder a) else .error .stuck

/-- `MemWrite(addr, 4, v)` (R67). -/
def memWrite (l : Launch) (m : Memory) (a : Nat) (v : Word) : Except Fault Memory :=
  if admits l .write a then .ok (m.writeWord l.byteOrder a v) else .error .stuck

/-- One pixel read and written back changed, the read before the write (R74). -/
def memRewrite (l : Launch) (m : Memory) (a : Nat) (f : Word → Word) : Except Fault Memory :=
  match memRead l m a with
  | .error e => .error e
  | .ok p => memWrite l m a (f p)

/-- One pixel changed by a pixel of another buffer: target, then other, then the write (R202, R204). -/
def memCombine (l : Launch) (m : Memory) (a other : Nat) (f : Word → Word → Word) : Except Fault Memory :=
  match memRead l m a with
  | .error e => .error e
  | .ok p =>
    match memRead l m other with
    | .error e => .error e
    | .ok q => memWrite l m a (f p q)

/-- `n` pixels from index i on, in ascending order (R12, R42, R74); the first access that is not admitted ends it. -/
def forPixels (f : Nat → Memory → Except Fault Memory) : Nat → Nat → Memory → Except Fault Memory
  | 0, _, m => .ok m
  | n + 1, i, m =>
    match f i m with
    | .error e => .error e
    | .ok m' => forPixels f n (i + 1) m'

/-- `for i in first..last` (R12): inclusive, and nothing when first > last. -/
def eachPixel (f : Nat → Memory → Except Fault Memory) (first last : Nat) (m : Memory) : Except Fault Memory :=
  forPixels f (last + 1 - first) first m

/-! ### Completion and errors -/

/-- A command completes with an outcome (R43): ERR, BUSY 0, DONE 1; IGN and everything else stay. -/
def State.complete (e : ErrCode) (s : State) : State := { s with status := s.status.completed e }

/-- RESULT is written (R29). -/
def State.withResult (v : Word) (s : State) : State := { s with result := v }

/-- Pixel memory becomes m. -/
def State.withMem (m : Memory) (s : State) : State := { s with mem := m }

/-- `raise Error(code)` (R12, R233): the command ends at once, with no memory access made, and completes with that code. -/
def raiseError (e : ErrCode) (s : State) : Host.Outcome State Fault Refusal := .next (s.complete e)

/-! ### Region commands -/

/-- The four ways the prologue of a region command ends (R170, R234). -/
inductive Prologue where
  /-- An argument check fails (R232). -/
  | raise (e : ErrCode)
  /-- The resolved region is EMPTY (R129). -/
  | empty
  /-- Read and written buffer overlap partially (R79). -/
  | overlap
  /-- The resolved region, first to last inclusive. -/
  | region (first last : Nat)
deriving DecidableEq, Repr

/-- `argument_checks(uses_src)` (R232): none, or the code raised; the destination is checked first. -/
def argumentChecks (readsSrc : Bool) (o : OperandRegs) : Option ErrCode :=
  if o.dst.valid = false then some .argDst
  else if readsSrc = true ∧ o.src.valid = false then some .argSrc
  else none

/-- The prologue of R170: argument checks, effective width, raw bounds, normalizer, overlap check. -/
def prologue (readsSrc sBit eBit : Bool) (o : OperandRegs) : Prologue :=
  match argumentChecks readsSrc o with
  | some e => .raise e
  | none =>
    match resolve (effectiveWidth readsSrc o) (rawStart sBit o) (rawEnd eBit o) with
    | none => .empty
    | some (first, last) =>
      if readsSrc = true ∧ partialOverlap o first last = true then .overlap else .region first last

/-- A region command: the prologue, then its body over the region, all in one atomic transition (R74, R170). An error or an
EMPTY region makes no access; an access that is not admitted leaves nothing changed (R69). -/
def runRegion (readsSrc sBit eBit : Bool) (body : Nat → Nat → Memory → Except Fault Memory) (s : State) :
    Host.Outcome State Fault Refusal :=
  match prologue readsSrc sBit eBit s.latch.ops with
  | .raise e => raiseError e s
  | .empty => .next (s.complete .ok)
  | .overlap => .fault (.undefined .partialOverlap)
  | .region first last =>
    match body first last s.mem with
    | .error r => .fault r
    | .ok m => .next ((s.withMem m).complete .ok)

/-! ### The register window -/

/-- The named slots of the window (R20). -/
inductive Reg where
  | CMD | STATUS | RESULT | COLOR1 | COLOR2 | START | END | DST_BASE | DST_LEN | SRC_BASE | SRC_LEN
deriving DecidableEq, Repr

/-- The offset of a slot (R20). -/
def Reg.offset : Reg → Nat
  | .CMD => 0x00
  | .STATUS => 0x04
  | .RESULT => 0x08
  | .COLOR1 => 0x0C
  | .COLOR2 => 0x10
  | .START => 0x14
  | .END => 0x18
  | .DST_BASE => 0x1C
  | .DST_LEN => 0x20
  | .SRC_BASE => 0x24
  | .SRC_LEN => 0x28

/-- The slots in the order of R20. -/
def Reg.all : List Reg :=
  [.CMD, .STATUS, .RESULT, .COLOR1, .COLOR2, .START, .END, .DST_BASE, .DST_LEN, .SRC_BASE, .SRC_LEN]

/-- The slot at an aligned offset; none for the reserved offsets 0x2C to 0x3C (R20, R22). -/
def Reg.at? (offset : Nat) : Option Reg := Reg.all.find? (fun r => r.offset == offset)

/-- A read of a slot: its value, with no side effect (R23). -/
def readSlot (r : Reg) (s : State) : Word :=
  match r with
  | .CMD => s.cmd
  | .STATUS => s.status.word
  | .RESULT => s.result
  | .COLOR1 => s.regs.color1
  | .COLOR2 => s.regs.color2
  | .START => s.regs.startPos
  | .END => s.regs.endPos
  | .DST_BASE => s.regs.dstBase
  | .DST_LEN => s.regs.dstLen
  | .SRC_BASE => s.regs.srcBase
  | .SRC_LEN => s.regs.srcLen

/-- Acceptance of a command word (R24, R40): CMD and the latch take it with the operand registers of this instant; BUSY 1,
DONE 0, ERR 0. -/
def State.accept (v : Word) (s : State) : State :=
  { s with cmd := v, latch := { cmd := v, ops := s.regs }, status := s.status.accepted }

/-- The operand registers become o (R38). -/
def State.withRegs (o : OperandRegs) (s : State) : State := { s with regs := o }

/-- A host write of a slot: CMD issues or is dropped (R24), STATUS clears IGN (R27), RESULT ignores writes (R29), an operand
register takes the value at once (R38). -/
def writeSlot (r : Reg) (v : Word) (s : State) : State :=
  match r with
  | .CMD => if s.status.busy then { s with status := s.status.dropped } else s.accept v
  | .STATUS => { s with status := s.status.written v }
  | .RESULT => s
  | .COLOR1 => s.withRegs { s.regs with color1 := v }
  | .COLOR2 => s.withRegs { s.regs with color2 := v }
  | .START => s.withRegs { s.regs with startPos := v }
  | .END => s.withRegs { s.regs with endPos := v }
  | .DST_BASE => s.withRegs { s.regs with dstBase := v }
  | .DST_LEN => s.withRegs { s.regs with dstLen := v }
  | .SRC_BASE => s.withRegs { s.regs with srcBase := v }
  | .SRC_LEN => s.withRegs { s.regs with srcLen := v }

/-- The value a 32-bit read at an aligned offset of the window returns; a reserved offset reads 0 (R22). -/
def readWindow (offset : Nat) (s : State) : Word :=
  match Reg.at? offset with
  | some r => readSlot r s
  | none => 0#32

/-- A 32-bit write at an aligned offset of the window; a reserved offset ignores it (R22). -/
def writeWindow (offset : Nat) (v : Word) (s : State) : State :=
  match Reg.at? offset with
  | some r => writeSlot r v s
  | none => s

/-- The offset a host register access reaches, or why it is refused (R20, R21). -/
def windowOffset (l : Launch) (addr width : Nat) : Except Refusal Nat :=
  if addr < l.regBase ∨ l.regBase + Config.windowBytes ≤ addr then .error .outsideWindow
  else if width ≠ 32 ∨ (addr - l.regBase) % 4 ≠ 0 then .error .registerAccess
  else .ok (addr - l.regBase)

/-! ### Reset -/

/-- What the reset signal does to everything but pixel memory (R260): every window register and STATUS to 0, and the latch
to any value (`junk`). -/
def State.resetRegisters (junk : Latch) (s : State) : State :=
  { s with cmd := 0#32, status := Status.reset, result := 0#32, regs := OperandRegs.reset, latch := junk }

/-- Pixel memory after draws of R261: each draw of a pixel of a valid buffer leaves there the word `value` gives it, or the
old one where that is none. -/
def drawPixels (order : ByteOrder) (d : Descriptor) (value : PixelDraw → Option Word) : List PixelDraw → Memory → Memory
  | [], m => m
  | p :: rest, m =>
    drawPixels order d value rest
      (if d.valid = true ∧ p.index < d.count then
        match value p with
        | some v => m.writeWord order (d.pixelAddr p.index) v
        | none => m
      else m)

end Sys2Proof.Machine
end

