-- ==== Sys2Proof/Machine/Blend.lean ====
section
/-! DEFINITION. The two single-pixel commands (spec/41_pixel_blend.md). They touch no pixel memory and check no descriptor. -/

namespace Sys2Proof.Machine

/-- BLEND (R152): RESULT <- blend_pair(L.COLOR1, L.COLOR2), outcome OK. -/
def execBlend (s : State) : Host.Outcome State Fault Refusal :=
  .next ((s.withResult (blendPair s.latch.ops.color1 s.latch.ops.color2)).complete .ok)

/-- BLENDL (R154): RESULT <- blend_linear(L.COLOR1, L.COLOR2, alpha), outcome OK. -/
def execBlendl (alpha : BitVec 8) (s : State) : Host.Outcome State Fault Refusal :=
  .next ((s.withResult (blendLinear s.latch.ops.color1 s.latch.ops.color2 alpha)).complete .ok)

end Sys2Proof.Machine
end

