-- ==== Sys2Proof/Machine/Compose.lean ====
section
/-! DEFINITION. The region blend, the gradient and the solid-color blend (spec/42_region_compose.md). -/

namespace Sys2Proof.Machine

/-- One pixel of BLENDBUF (R171): source alpha 0 makes no write, 255 copies without reading the destination. -/
def blendbufPixel (l : Launch) (o : OperandRegs) (i : Nat) (m : Memory) : Except Fault Memory :=
  match memRead l m (o.src.pixelAddr i) with
  | .error e => .error e
  | .ok c2 =>
    if alphaOf c2 = 0#8 then .ok m
    else if alphaOf c2 = 255#8 then memWrite l m (o.dst.pixelAddr i) c2
    else memRewrite l m (o.dst.pixelAddr i) (fun c1 => blendPair c1 c2)

/-- BLENDBUF (R171). -/
def execBlendbuf (sBit eBit : Bool) (s : State) : Host.Outcome State Fault Refusal :=
  runRegion true sBit eBit (eachPixel (blendbufPixel s.launch s.latch.ops)) s

/-- The body of GRAD (R174): start endpoint, end endpoint, then the interior in ascending order; a region of one pixel is
only COLOR1, one of two pixels only the endpoints. -/
def gradBody (l : Launch) (o : OperandRegs) (first last : Nat) (m : Memory) : Except Fault Memory :=
  match memWrite l m (o.dst.pixelAddr first) o.color1 with
  | .error e => .error e
  | .ok m1 =>
    if last = first then .ok m1
    else
      match memWrite l m1 (o.dst.pixelAddr last) o.color2 with
      | .error e => .error e
      | .ok m2 =>
        if last - first = 1 then .ok m2
        else
          eachPixel
            (fun i m => memWrite l m (o.dst.pixelAddr i) (gradPixel o.color1 o.color2 (i - first) (last - first)))
            (first + 1) (last - 1) m2

/-- GRAD (R174). -/
def execGrad (sBit eBit : Bool) (s : State) : Host.Outcome State Fault Refusal :=
  runRegion false sBit eBit (gradBody s.launch s.latch.ops) s

/-- One pixel of BLENDC (R176): the solid color is the source. -/
def blendcPixel (l : Launch) (o : OperandRegs) (i : Nat) (m : Memory) : Except Fault Memory :=
  memRewrite l m (o.dst.pixelAddr i) (fun c1 => blendPair c1 o.color1)

/-- BLENDC (R176): the argument check comes first, then a transparent color is a no-op, then the region. -/
def execBlendc (sBit eBit : Bool) (s : State) : Host.Outcome State Fault Refusal :=
  match argumentChecks false s.latch.ops with
  | some e => raiseError e s
  | none =>
    if alphaOf s.latch.ops.color1 = 0#8 then .next (s.complete .ok)
    else runRegion false sBit eBit (eachPixel (blendcPixel s.launch s.latch.ops)) s

end Sys2Proof.Machine
end

