-- ==== Sys2Proof/Machine/Fill.lean ====
section
/-! DEFINITION. The solid fill (spec/44_fill.md). -/

namespace Sys2Proof.Machine

/-- FILL (R220): every pixel of the region becomes L.COLOR1, whatever its alpha; nothing is read. -/
def execFill (sBit eBit : Bool) (s : State) : Host.Outcome State Fault Refusal :=
  runRegion false sBit eBit
    (eachPixel fun i m => memWrite s.launch m (s.latch.ops.dst.pixelAddr i) s.latch.ops.color1) s

end Sys2Proof.Machine
end

