-- ==== Sys2Proof/Machine/Scale.lean ====
section
/-! DEFINITION. The opacity / brightness scaler (spec/43_scale.md): opacity changes alpha alone, brightness R, G and B alone. -/

namespace Sys2Proof.Machine

/-- OPAC (R201). -/
def execOpac (sBit eBit : Bool) (scale : BitVec 9) (s : State) : Host.Outcome State Fault Refusal :=
  runRegion false sBit eBit
    (eachPixel fun i m => memRewrite s.launch m (s.latch.ops.dst.pixelAddr i) (opacityPixel scale)) s

/-- OPACM (R202): target pixel i is scaled by mask pixel i. -/
def execOpacm (sBit eBit : Bool) (s : State) : Host.Outcome State Fault Refusal :=
  runRegion true sBit eBit
    (eachPixel fun i m =>
      memCombine s.launch m (s.latch.ops.dst.pixelAddr i) (s.latch.ops.src.pixelAddr i) maskOpacityPixel) s

/-- BRIGHT (R203). -/
def execBright (sBit eBit : Bool) (scale : BitVec 9) (s : State) : Host.Outcome State Fault Refusal :=
  runRegion false sBit eBit
    (eachPixel fun i m => memRewrite s.launch m (s.latch.ops.dst.pixelAddr i) (brightnessPixel scale)) s

/-- BRIGHTM (R204): as OPACM, with `MASK_BRIGHT_FN` on R, G and B. -/
def execBrightm (sBit eBit : Bool) (s : State) : Host.Outcome State Fault Refusal :=
  runRegion true sBit eBit
    (eachPixel fun i m =>
      memCombine s.launch m (s.latch.ops.dst.pixelAddr i) (s.latch.ops.src.pixelAddr i)
        (maskBrightnessPixel s.launch.maskBright)) s

end Sys2Proof.Machine
end

