-- ==== Sys2Proof/Machine/Dispatch.lean ====
section
/-! DEFINITION. One arm per command form (R231). -/

namespace Sys2Proof.Machine

def exec (i : Instr) (s : State) : Host.Outcome State Fault Refusal :=
  match i with
  | .blend => Sys2Proof.Machine.execBlend s
  | .blendl alpha => Sys2Proof.Machine.execBlendl alpha s
  | .blendbuf sBit eBit => Sys2Proof.Machine.execBlendbuf sBit eBit s
  | .grad sBit eBit => Sys2Proof.Machine.execGrad sBit eBit s
  | .blendc sBit eBit => Sys2Proof.Machine.execBlendc sBit eBit s
  | .opac sBit eBit scale => Sys2Proof.Machine.execOpac sBit eBit scale s
  | .opacm sBit eBit => Sys2Proof.Machine.execOpacm sBit eBit s
  | .bright sBit eBit scale => Sys2Proof.Machine.execBright sBit eBit scale s
  | .brightm sBit eBit => Sys2Proof.Machine.execBrightm sBit eBit s
  | .fill sBit eBit => Sys2Proof.Machine.execFill sBit eBit s

end Sys2Proof.Machine
end

