-- ==== Sys2Proof/Machine/Turns.lean ====
section
/-! DEFINITION. The turns of the two agents (R240): the block's execution step (R43, R231) and the host's moves (R241), with
the reset signal (R260, R261). -/

namespace Sys2Proof.Machine

/-- The execution step (R43, R231): decode the latched word, raise ILLEGAL if it is no command, else run the command. -/
def executeLatched (s : State) : Host.Outcome State Fault Refusal :=
  match decode s.latch.cmd with
  | .ok i => exec i s
  | .error _ => raiseError .illegal s

/-- A turn of the block: the execution step while BUSY == 1 (R43); an IDLE block waits (R242, R260). -/
def blockTurn (s : State) : Host.Outcome State Fault Refusal :=
  if s.status.busy then executeLatched s else .next s

/-- The bytes the running command names (R76, R241): while BUSY, every byte of the descriptors' whole ranges that the latched
command checks. DEDUCED (log 16), unsafe: an illegal word names none, an invalid descriptor its whole range. -/
def handedOver (s : State) (a : Nat) : Bool :=
  s.status.busy &&
    match decode s.latch.cmd with
    | .error _ => false
    | .ok i => (usesDst i && s.latch.ops.dst.covers a) || (usesSrc i && s.latch.ops.src.covers a)

/-- One of the four bytes from a on is handed over. -/
def handedOverWord (s : State) (a : Nat) : Bool :=
  handedOver s a || handedOver s (a + 1) || handedOver s (a + 2) || handedOver s (a + 3)

/-- The host's read returns v (R241); no state of the block changes (R23, R65). -/
def State.receive (v : Word) (s : State) : State := { s with received := v }

/-- A host read of a register (R20 to R23). -/
def hostReadReg (addr width : Nat) (s : State) : Host.Outcome State Fault Refusal :=
  match windowOffset s.launch addr width with
  | .error r => .refused r
  | .ok off => .next (s.receive (readWindow off s))

/-- A host write of a register (R20 to R24, R27, R38). -/
def hostWriteReg (addr width : Nat) (v : Word) (s : State) : Host.Outcome State Fault Refusal :=
  match windowOffset s.launch addr width with
  | .error r => .refused r
  | .ok off => .next (writeWindow off v s)

/-- Why a host access to the pixel word at a is refused, if it is (R10, R61, R76). DEDUCED (log 12), safe. -/
def hostWordRefusal (k : AccessKind) (s : State) (a : Nat) : Option Refusal :=
  if a % 4 ≠ 0 then some .hostUnaligned
  else if handedOverWord s a then some .hostDuty
  else if admits s.launch k a then none
  else some .hostNotAdmitted

/-- Why a host access to the byte at a is refused, if it is; `Mem` admits whole words (R10), so the word that holds the byte
decides. DESIGN CHOICE (log 12), safe. -/
def hostByteRefusal (k : AccessKind) (s : State) (a : Nat) : Option Refusal :=
  if handedOver s a then some .hostDuty
  else if admits s.launch k (a - a % 4) then none
  else some .hostNotAdmitted

/-- `ldm` (R101): the host receives the pixel word. -/
def hostLoadPixel (addr : Word) (s : State) : Host.Outcome State Fault Refusal :=
  match hostWordRefusal .read s addr.toNat with
  | some r => .refused r
  | none => .next (s.receive (s.mem.readWord s.launch.byteOrder addr.toNat))

/-- `stm` (R101). -/
def hostStorePixel (addr v : Word) (s : State) : Host.Outcome State Fault Refusal :=
  match hostWordRefusal .write s addr.toNat with
  | some r => .refused r
  | none => .next (s.withMem (s.mem.writeWord s.launch.byteOrder addr.toNat v))

/-- A host read of one byte of pixel memory (R64, R65). -/
def hostLoadByte (addr : Word) (s : State) : Host.Outcome State Fault Refusal :=
  match hostByteRefusal .read s addr.toNat with
  | some r => .refused r
  | none => .next (s.receive ((s.mem.read addr.toNat).setWidth 32))

/-- A host write of one byte of pixel memory (R65). -/
def hostStoreByte (addr : Word) (v : Byte) (s : State) : Host.Outcome State Fault Refusal :=
  match hostByteRefusal .write s addr.toNat with
  | some r => .refused r
  | none => .next (s.withMem (s.mem.write addr.toNat v))

/-- The turns become l. -/
def State.withScript (l : List Move) (s : State) : State := { s with script := l }

/-- One poll of `wait` (R103): STATUS is read; while BUSY is 1 the loop goes on, and the block gets the next turn (weak
fairness, R275, log 8). -/
def hostWait (s : State) : Host.Outcome State Fault Refusal :=
  let polled := s.receive s.status.word
  if s.status.busy then .next (polled.withScript (.block :: .host .wait :: s.script)) else .next polled

/-- The word a drawn pixel holds where the discarded command overlaps partially (R79, R261): the draw's own value for a
pixel of the resolved region whose write `Mem` admits, else none. DESIGN CHOICE (log 10), safe: any such pixel may be drawn,
because the spec does not say which of them the command would write. -/
def overlapDraw (s : State) (p : PixelDraw) : Option Word :=
  match decode s.latch.cmd with
  | .error _ => none
  | .ok i =>
    match commandRegion i s.latch.ops with
    | none => none
    | some (first, last) =>
      if first ≤ p.index ∧ p.index ≤ last ∧ admits s.launch .write (s.latch.ops.dst.pixelAddr p.index) = true then
        some p.value
      else none

/-- Pixel memory after a reset that discards the running command (R261): a drawn pixel holds what the command would have
written, any value where that is undefined (R79, log 10), and every other pixel the old value. A stuck command would have
written nothing (R69, log 11). -/
def discardedMemory (draws : List PixelDraw) (s : State) : Memory :=
  let order := s.launch.byteOrder
  let dst := s.latch.ops.dst
  match executeLatched s with
  | .next t => drawPixels order dst (fun p => some (t.mem.readWord order (dst.pixelAddr p.index))) draws s.mem
  | .fault (.undefined .partialOverlap) => drawPixels order dst (overlapDraw s) draws s.mem
  | .fault (.undefined .remapZeroRange) => s.mem
  | .fault .stuck => s.mem
  | .refused _ => s.mem

/-- The reset signal (R260): from every state, registers and STATUS clear, and a command whose execution step has not been
taken is discarded. -/
def hostReset (draws : List PixelDraw) (junk : Latch) (s : State) : Host.Outcome State Fault Refusal :=
  .next ((s.withMem (if s.status.busy then discardedMemory draws s else s.mem)).resetRegisters junk)

/-- A turn of the host (R241). -/
def hostTurn (m : HostMove) (s : State) : Host.Outcome State Fault Refusal :=
  match m with
  | .readReg addr width => hostReadReg addr width s
  | .writeReg addr width v => hostWriteReg addr width v s
  | .loadPixel addr _ => hostLoadPixel addr s
  | .storePixel addr v => hostStorePixel addr v s
  | .loadByte addr => hostLoadByte addr s
  | .storeByte addr v => hostStoreByte addr v s
  | .wait => hostWait s
  | .reset draws junk => hostReset draws junk s

/-- The next turn: the script's first; with no turn left the block has it (R275, log 2). -/
def takeTurn (s : State) : Host.Outcome State Fault Refusal :=
  match s.script with
  | [] => blockTurn s
  | .block :: rest => blockTurn (s.withScript rest)
  | .host m :: rest => hostTurn m (s.withScript rest)

/-- The script with the block's turn first, the host's pending moves after it. -/
def blockFirst : List Move → List Move
  | [] => []
  | .block :: rest => .block :: rest
  | .host m :: rest => .block :: .host m :: rest

/-- The word v accepted as a command (R24), with the block's turn next. -/
def State.withCommand (v : Word) (s : State) : State := (s.accept v).withScript (blockFirst s.script)

end Sys2Proof.Machine
end

