-- ==== Sys2Proof/Machine/Step.lean ====
section
/-! DEFINITION. One step of the machine is one turn, the host's or the block's (R240); and how the host of this package puts a
command where the block takes its next one from. -/

namespace Sys2Proof.Machine

/-- One step: the next turn of the script (R240, R275). -/
def step (s : State) : Host.Outcome State Fault Refusal := takeTurn s

/-- The state in which the very next step runs the command word of the low `nbits` bits of `w`: the word is accepted as a CMD
write of an IDLE block is (R24), and the block has the next turn (log 9). -/
def State.withFetchWord (s : State) (nbits w : Nat) : State := s.withCommand (BitVec.ofNat 32 (w % 2 ^ nbits))

end Sys2Proof.Machine
end

