-- ==== Sys2Proof/Machine/Assembler.lean ====
section
/-! DEFINITION. Host programs (R101 to R104): statements, their expansion and the host moves they become. The text of a
program (comments, spacing) carries no meaning (D27); a statement stands here as its parts (log 15). -/

namespace Sys2Proof.Machine

/-- `imm32` of R101: a decimal literal, a `0x` literal, or a name defined by `.equ`. -/
inductive Imm where
  | dec (z : Int)
  | hex (n : Nat)
  | name (n : String)
deriving DecidableEq, Repr

/-- A statement of a host program (R101), a pseudo-instruction (R103), or `.equ`. -/
inductive Stmt where
  | equ (name : String) (value : Imm)
  | wr (r : Reg) (v : Imm)
  | rd (r : Reg)
  | cmd (c : CmdSpelling)
  | ldm (addr v : Imm)
  | stm (addr v : Imm)
  | wait
  | setdst (base len : Imm)
  | setsrc (base len : Imm)
  | setrgn (first last : Imm)
  | clrign
  | run (c : CmdSpelling)
deriving DecidableEq, Repr

/-- Why the assembler refuses a line. -/
inductive AsmError where
  /-- A spelling that would give an illegal word (R102). -/
  | spelling (e : SpellingError)
  /-- A name that no `.equ` before it defines (R101). -/
  | unknownName (n : String)
  /-- A literal that is no 32-bit value (R101). -/
  | notImm32
deriving DecidableEq, Repr

/-- The names defined so far, the latest first. -/
abbrev Equates := List (String × Word)

/-- The 32-bit value of a literal or a name (R101): a negative decimal stands for its two's complement. DESIGN CHOICE (log 15),
safe: a literal that is no 32-bit value is refused, and the latest `.equ` of a name counts. -/
def Imm.value (env : Equates) : Imm → Except AsmError Word
  | .dec z => if -(2 ^ 31) ≤ z ∧ z < 2 ^ 32 then .ok (BitVec.ofInt 32 z) else .error .notImm32
  | .hex n => if n < 2 ^ 32 then .ok (BitVec.ofNat 32 n) else .error .notImm32
  | .name n =>
    match env.find? (fun e => e.1 == n) with
    | some e => .ok e.2
    | none => .error (.unknownName n)

/-- The access `(REG_BASE + offset(REG), v)` (R101). -/
def regWrite (l : Launch) (r : Reg) (v : Word) : HostMove := .writeReg (l.regBase + r.offset) 32 v

/-- The access `(REG_BASE + offset(REG), read)` (R101). -/
def regRead (l : Launch) (r : Reg) : HostMove := .readReg (l.regBase + r.offset) 32

/-- Two register writes whose values are literals. -/
def regWrites (l : Launch) (env : Equates) (r1 : Reg) (v1 : Imm) (r2 : Reg) (v2 : Imm) : Except AsmError (List HostMove) :=
  match v1.value env, v2.value env with
  | .ok w1, .ok w2 => .ok [regWrite l r1 w1, regWrite l r2 w2]
  | .error e, _ => .error e
  | .ok _, .error e => .error e

/-- `ldm addr, imm32` and `stm addr, imm32` (R101): a pixel access with an address and a value, both literals. -/
def pixelAccess (env : Equates) (access : Word → Word → HostMove) (a v : Imm) : Except AsmError (List HostMove) :=
  match a.value env, v.value env with
  | .ok x, .ok w => .ok [access x w]
  | .error e, _ => .error e
  | .ok _, .error e => .error e

/-- A command mnemonic is `wr CMD, word` (R101, R102). -/
def commandWrite (l : Launch) (c : CmdSpelling) : Except AsmError HostMove :=
  match c.toInstr with
  | .ok i => .ok (regWrite l .CMD (encode i))
  | .error e => .error (.spelling e)

/-- The host moves of one statement (R101, R103); `.equ` makes none. -/
def Stmt.moves (l : Launch) (env : Equates) : Stmt → Except AsmError (List HostMove)
  | .equ _ v =>
    match v.value env with
    | .ok _ => .ok []
    | .error e => .error e
  | .wr r v =>
    match v.value env with
    | .ok w => .ok [regWrite l r w]
    | .error e => .error e
  | .rd r => .ok [regRead l r]
  | .cmd c =>
    match commandWrite l c with
    | .ok m => .ok [m]
    | .error e => .error e
  | .ldm a v => pixelAccess env .loadPixel a v
  | .stm a v => pixelAccess env .storePixel a v
  | .wait => .ok [.wait]
  | .setdst b n => regWrites l env .DST_BASE b .DST_LEN n
  | .setsrc b n => regWrites l env .SRC_BASE b .SRC_LEN n
  | .setrgn a b => regWrites l env .START a .END b
  | .clrign => .ok [regWrite l .STATUS 0x4#32]
  | .run c =>
    match commandWrite l c with
    | .ok m => .ok [m, .wait]
    | .error e => .error e

/-- The names defined after a statement (R101). -/
def Stmt.equates (env : Equates) : Stmt → Equates
  | .equ n v =>
    match v.value env with
    | .ok w => (n, w) :: env
    | .error _ => env
  | .wr _ _ => env
  | .rd _ => env
  | .cmd _ => env
  | .ldm _ _ => env
  | .stm _ _ => env
  | .wait => env
  | .setdst _ _ => env
  | .setsrc _ _ => env
  | .setrgn _ _ => env
  | .clrign => env
  | .run _ => env

/-- A host program as host moves, or the line the assembler refuses and why (R101, R102). -/
def assemble (l : Launch) : Nat → Equates → List Stmt → Except (Nat × AsmError) (List HostMove)
  | _, _, [] => .ok []
  | line, env, st :: rest =>
    match st.moves l env with
    | .error e => .error (line, e)
    | .ok here =>
      match assemble l (line + 1) (st.equates env) rest with
      | .error e => .error e
      | .ok later => .ok (here ++ later)

/-- The register access of a move as an (offset, value) pair, the value none for a read (R101); a pixel access, which is no
register access, and the reset signal have none, and `wait` reads STATUS (R103). -/
def HostMove.registerAccess? (l : Launch) : HostMove → Option (Nat × Option Word)
  | .readReg addr _ => some (addr - l.regBase, none)
  | .writeReg addr _ v => some (addr - l.regBase, some v)
  | .loadPixel _ _ => none
  | .storePixel _ _ => none
  | .loadByte _ => none
  | .storeByte _ _ => none
  | .wait => some (Reg.STATUS.offset, none)
  | .reset _ _ => none

/-- The encoding of a host program: the list of its register accesses (R101). -/
def programEncoding (l : Launch) (program : List Stmt) : Except (Nat × AsmError) (List (Nat × Option Word)) :=
  match assemble l 1 [] program with
  | .ok moves => .ok (moves.filterMap (HostMove.registerAccess? l))
  | .error e => .error e

/-- A spelling with no suffix and no immediate. -/
def plainSpelling (n : Mnemonic) : CmdSpelling := { name := n, sSuffix := false, eSuffix := false, imm := none }

/-- `blend(c1, c2)` of the source as a host program (R104). -/
def blendProgram (c1 c2 : Imm) : List Stmt :=
  [.wr .COLOR1 c1, .wr .COLOR2 c2, .run (plainSpelling .BLEND), .rd .RESULT]

/-- `blend_linear(ca, cb, a)` of the source as a host program (R104). -/
def blendLinearProgram (ca cb : Imm) (a : Int) : List Stmt :=
  [.wr .COLOR1 ca, .wr .COLOR2 cb, .run { plainSpelling .BLENDL with imm := some a }, .rd .RESULT]

/-- A region function of the source: its operand writes, the command, then STATUS read to check ERR (R104). -/
def regionProgram (operands : List (Reg × Imm)) (c : CmdSpelling) : List Stmt :=
  operands.map (fun o => Stmt.wr o.1 o.2) ++ [.run c, .rd .STATUS]

end Sys2Proof.Machine
end

