-- ==== Sys2Proof/Safety.lean ====
section
/-! DEFINITION. What counts as a good state, a good outcome and a final state, in the terms the claims use. -/

namespace Sys2Proof.Machine

/-- The next state of an outcome, if it is one. -/
def nextOf (o : Host.Outcome State Fault Refusal) : Option State :=
  match o with
  | .next s => some s
  | .fault _ => none
  | .refused _ => none

/-- A final state (R12, R238): the block is IDLE and no turn of the host is pending. A run that faults, is stuck or is
refused never reaches one. -/
def State.final (s : State) : Bool := !s.status.busy && s.script.isEmpty

/-- BUSY and DONE are never both 1 (R26). -/
def State.phaseOk (s : State) : Bool := !(s.status.busy && s.status.done)

/-- ERR reads 0 unless a command has completed (R24, R28). -/
def State.errOk (s : State) : Bool := s.status.done || s.status.err == .ok

/-- While BUSY, CMD reads the latched word (R24, R40). -/
def State.latchOk (s : State) : Bool := !s.status.busy || s.latch.cmd == s.cmd

/-- What every step keeps: canonical memory (R60), the two phases (R26), ERR 0 outside completion (R28), CMD the latched word
while BUSY (R24), and well-formed launch parameters (R10). -/
def State.inv (s : State) : Bool :=
  s.mem.wf && s.phaseOk && s.errOk && s.latchOk && s.launch.wf

/-- The block's turn comes next: the script is used up or begins with it (R240, R275). -/
def State.blockNext (s : State) : Bool :=
  match s.script with
  | [] => true
  | .block :: _ => true
  | .host _ :: _ => false

/-- The state with the block's turn taken from the script. -/
def State.turnTaken (s : State) : State :=
  match s.script with
  | [] => s
  | .block :: rest => s.withScript rest
  | .host _ :: _ => s

/-- The pixel i of a buffer in a state (R61, R63). -/
def State.pixel (s : State) (d : Descriptor) (i : Nat) : Word := s.mem.readWord s.launch.byteOrder (d.pixelAddr i)

/-- Address a lies outside the pixels first to last of a buffer (R70). -/
abbrev Descriptor.outside (d : Descriptor) (first last a : Nat) : Prop :=
  a < d.pixelAddr first ∨ d.pixelAddr last + 4 ≤ a

/-- The check of an `ldm` (R101): what the host received is the statement's imm32. Other moves have none. -/
def HostMove.checkPasses (m : HostMove) (t : State) : Bool :=
  match m with
  | .loadPixel _ expected => t.received == expected
  | .readReg _ _ => true
  | .writeReg _ _ _ => true
  | .storePixel _ _ => true
  | .loadByte _ => true
  | .storeByte _ _ => true
  | .wait => true
  | .reset _ _ => true

/-- `Mem` admits the access to every pixel first to last of a buffer (R69). -/
abbrev admitsPixels (l : Launch) (k : AccessKind) (d : Descriptor) (first last : Nat) : Prop :=
  ∀ i, i ≤ last → first ≤ i → admits l k (d.pixelAddr i) = true

/-- The state after a command that ends with outcome e and memory m (R43): ERR is e, BUSY 0, DONE 1, IGN kept, and everything
else as it was. -/
abbrev State.doneFrom (s : State) (e : ErrCode) (m : Memory) : State :=
  { s with mem := m, status := { busy := false, done := true, ign := s.status.ign, err := e } }

/-- What a region command needs to reach its body over first..last (R170, R234): valid descriptors, a region that is not
EMPTY, and no partial overlap. -/
abbrev RegionReady (i : Instr) (s : State) (first last : Nat) : Prop :=
  s.latch.ops.dst.valid = true ∧ (usesSrc i = true → s.latch.ops.src.valid = true) ∧
    commandRegion i s.latch.ops = some (first, last) ∧
    (usesSrc i = true → partialOverlap s.latch.ops first last = false)

/-- `Mem` refuses an access that the command makes at pixel k of its region (R71). BLENDBUF makes an access to its destination
only as the alpha of the source pixel asks for it. -/
def accessDenied (i : Instr) (s : State) (k : Nat) : Bool :=
  let l := s.launch
  let o := s.latch.ops
  match i with
  | .blend => false
  | .blendl _ => false
  | .blendbuf _ _ =>
    !admits l .read (o.src.pixelAddr k) ||
      (alphaOf (s.pixel o.src k) != 0#8 && !admits l .write (o.dst.pixelAddr k)) ||
      (alphaOf (s.pixel o.src k) != 0#8 && alphaOf (s.pixel o.src k) != 255#8 && !admits l .read (o.dst.pixelAddr k))
  | .grad _ _ => !admits l .write (o.dst.pixelAddr k)
  | .blendc _ _ => !admits l .read (o.dst.pixelAddr k) || !admits l .write (o.dst.pixelAddr k)
  | .opac _ _ _ => !admits l .read (o.dst.pixelAddr k) || !admits l .write (o.dst.pixelAddr k)
  | .opacm _ _ =>
    !admits l .read (o.dst.pixelAddr k) || !admits l .read (o.src.pixelAddr k) || !admits l .write (o.dst.pixelAddr k)
  | .bright _ _ _ => !admits l .read (o.dst.pixelAddr k) || !admits l .write (o.dst.pixelAddr k)
  | .brightm _ _ =>
    !admits l .read (o.dst.pixelAddr k) || !admits l .read (o.src.pixelAddr k) || !admits l .write (o.dst.pixelAddr k)
  | .fill _ _ => !admits l .write (o.dst.pixelAddr k)

/-- OPC + 64*M of a mnemonic (R96). -/
def opcodeOf : Mnemonic → Nat
  | .BLEND => 0x01
  | .BLENDL => 0x02
  | .BLENDBUF => 0x03
  | .GRAD => 0x04
  | .BLENDC => 0x05
  | .OPAC => 0x06
  | .OPACM => 0x46
  | .BRIGHT => 0x07
  | .BRIGHTM => 0x47
  | .FILL => 0x08

end Sys2Proof.Machine
end

