-- ==== Sys2Proof/Certificates/Slice0/Obligations.lean ====
section
/-! DEFINITION. The statements about the model, from the numbered rules of spec/. A docstring names the rules a statement
reads. -/

open Sys2Proof Sys2Proof.Machine

/-! ### Encoding -/

/-- R90, R96, R97: the word of every command decodes to that command, with every operand at every value. -/
def Obligations.DecodeOfEncodeIsTheCommand : Prop :=
  ∀ i : Instr, decode (encode i) = .ok i

/-- R97: no legal word is an alias of another; a word that decodes is the word of what it decodes to. -/
def Obligations.EncodeOfDecodeIsTheWord : Prop :=
  ∀ (w : Word) (i : Instr), decode w = .ok i → encode i = w

/-- R98: the words that are illegal, field by field; an illegal word is accepted like any word, and on execution completes
with ERR = ILLEGAL and changes nothing else. -/
def Obligations.IllegalWordsAndTheirCompletion : Prop :=
  (∀ w : Word, decode w = .error .illegal ↔
      (w.extractLsb' 0 4 = 0#4 ∨ 9#4 ≤ w.extractLsb' 0 4) ∨
      (w.getLsbD 7 = true ∨ w.extractLsb' 17 15 ≠ 0#15) ∨
      (w.getLsbD 6 = true ∧ w.extractLsb' 0 4 ≠ 6#4 ∧ w.extractLsb' 0 4 ≠ 7#4) ∨
      (w.extractLsb' 8 9 ≠ 0#9 ∧
        (w.extractLsb' 0 4 ∈ [1#4, 3#4, 4#4, 5#4, 8#4] ∨
          (w.extractLsb' 0 4 ∈ [6#4, 7#4] ∧ w.getLsbD 6 = true))) ∨
      (w.extractLsb' 0 4 = 2#4 ∧ w.getLsbD 16 = true) ∨
      (w.extractLsb' 0 4 ∈ [1#4, 2#4] ∧ (w.getLsbD 4 = true ∨ w.getLsbD 5 = true))) ∧
  (∀ (w : Word) (s : State), s.status.busy = false →
      hostTurn (.writeReg s.launch.regBase 32 w) s =
        .next { s with
          cmd := w
          latch := { cmd := w, ops := s.regs }
          status := { busy := true, done := false, ign := s.status.ign, err := .ok } }) ∧
  (∀ s : State, s.status.busy = true → decode s.latch.cmd = .error .illegal →
      blockTurn s = .next (s.doneFrom .illegal s.mem))

/-- R97: words written out from the patterns decode to their commands. -/
def Obligations.PatternWordsDecode : Prop :=
  decode 0b00000000000000000000000000000001#32 = .ok .blend ∧
  decode 0b00000000000000001010010100000010#32 = .ok (.blendl 0b10100101#8) ∧
  decode 0b00000000000000000000000000010011#32 = .ok (.blendbuf true false) ∧
  decode 0b00000000000000000000000000100100#32 = .ok (.grad false true) ∧
  decode 0b00000000000000000000000000110101#32 = .ok (.blendc true true) ∧
  decode 0b00000000000000010010110000010110#32 = .ok (.opac true false 0b100101100#9) ∧
  decode 0b00000000000000000000000001000110#32 = .ok (.opacm false false) ∧
  decode 0b00000000000000011001000000100111#32 = .ok (.bright false true 0b110010000#9) ∧
  decode 0b00000000000000000000000001100111#32 = .ok (.brightm false true) ∧
  decode 0b00000000000000000000000000111000#32 = .ok (.fill true true)

/-- R102: the assembler refuses exactly a suffix on BLEND or BLENDL, an immediate missing or out of range, and an immediate on
a form with no PARAM; the word of any other spelling is OPC | M<<6 | E<<5 | S<<4 | PARAM<<8. -/
def Obligations.AssembledWordsHaveTheirFields : Prop :=
  ∀ c : CmdSpelling,
    ((∃ e, c.toInstr = .error e) ↔
      (c.name ∈ [.BLEND, .BLENDL] ∧ (c.sSuffix = true ∨ c.eSuffix = true)) ∨
      (c.name = .BLENDL ∧ ¬∃ k, c.imm = some k ∧ 0 ≤ k ∧ k ≤ 255) ∨
      (c.name ∈ [.OPAC, .BRIGHT] ∧ ¬∃ k, c.imm = some k ∧ 0 ≤ k ∧ k ≤ 511) ∨
      (c.name ∉ [.BLENDL, .OPAC, .BRIGHT] ∧ c.imm ≠ none)) ∧
    (∀ i, c.toInstr = .ok i →
      (encode i).toNat =
        opcodeOf c.name + 16 * c.sSuffix.toNat + 32 * c.eSuffix.toNat + 256 * (c.imm.getD 0).toNat)

/-! ### Reset -/

/-- R44, R20, R25: after reset every window register reads 0, the block is IDLE, and memory holds its canonical form. -/
def Obligations.ResetRegistersReadZero : Prop :=
  (∀ r : Reg, readSlot r State.reset = 0#32) ∧
  State.reset.status = { busy := false, done := false, ign := false, err := .ok } ∧ State.reset.mem.wf = true

/-- The invariant of `StepKeepsTheInvariant` holds at reset. -/
def Obligations.ResetMeetsTheInvariant : Prop := State.reset.inv = true

/-- R264: what a command issued straight after reset, with no operand write, gives. -/
def Obligations.CommandsStraightAfterReset : Prop :=
  (∃ t, step (State.reset.withCommand (encode .blend)) = .next t ∧ t.result = 0#32 ∧ t.status.err = .ok ∧
    t.status.done = true) ∧
  (∀ w, ∃ t, step (State.reset.withCommand (encode (.blendl w))) = .next t ∧ t.result = 0#32 ∧ t.status.err = .ok ∧
    t.status.done = true) ∧
  (∀ i : Instr, usesDst i = true → ∃ t, step (State.reset.withCommand (encode i)) = .next t ∧ t.status.err = .argDst ∧
    t.status.done = true) ∧
  (∀ w : Word, decode w = .error .illegal → ∃ t, step (State.reset.withCommand w) = .next t ∧ t.status.err = .illegal ∧
    t.status.done = true)

/-- R260, R261: from every state the reset signal answers a next state with every window register and STATUS 0, any value in
the latch, and pixel memory as it was, but for the target of a command it discards. If that command would complete, each drawn
pixel holds its value and the others the old one. If it is stuck it has written nothing (R69, log 11). If it is a partial
overlap a drawn pixel of its region holds any value (log 10), and nothing else changes. -/
def Obligations.ResetSignalClearsAndDrawsPixels : Prop :=
  ∀ (draws : List PixelDraw) (junk : Latch) (s : State),
    ∃ t, hostTurn (.reset draws junk) s = .next t ∧
      t = { s with
        cmd := 0#32, result := 0#32, regs := OperandRegs.reset, latch := junk, mem := t.mem
        status := { busy := false, done := false, ign := false, err := .ok } } ∧
      (s.status.busy = false → t.mem = s.mem) ∧
      (s.status.busy = true → executeLatched s = .fault .stuck → t.mem = s.mem) ∧
      (s.status.busy = true → ∀ u, executeLatched s = .next u →
        (∀ i, i < s.latch.ops.dst.count → s.latch.ops.dst.valid = true →
          t.pixel s.latch.ops.dst i =
            if i ∈ draws.map PixelDraw.index then u.pixel s.latch.ops.dst i else s.pixel s.latch.ops.dst i) ∧
        (∀ a, (s.latch.ops.dst.valid = false ∨ a < s.latch.ops.dst.base.toNat ∨
            s.latch.ops.dst.pixelAddr s.latch.ops.dst.count ≤ a) → t.mem.read a = s.mem.read a)) ∧
      (s.status.busy = true → executeLatched s = .fault (.undefined .partialOverlap) →
        ∀ i first last, decode s.latch.cmd = .ok i → commandRegion i s.latch.ops = some (first, last) →
          (∀ a, s.latch.ops.dst.outside first last a → t.mem.read a = s.mem.read a) ∧
          (∀ k, first ≤ k → k ≤ last → (∀ p ∈ draws, p.index ≠ k) →
            t.pixel s.latch.ops.dst k = s.pixel s.latch.ops.dst k) ∧
          (∀ p ∈ draws, first ≤ p.index → p.index ≤ last →
            admits s.launch .write (s.latch.ops.dst.pixelAddr p.index) = true →
            (∀ q ∈ draws, q.index = p.index → q = p) → t.pixel s.latch.ops.dst p.index = p.value))

/-! ### Steps and invariants -/

/-- R43, R231: where the block has the turn and is BUSY and the latched word decodes, the step is exec of that command, the
turn taken from the script. -/
def Obligations.StepRunsTheDecodedCommand : Prop :=
  ∀ (i : Instr) (s : State), s.blockNext = true → s.status.busy = true → decode s.latch.cmd = .ok i →
    step s = exec i s.turnTaken

/-- R242: an IDLE block waits: its turn changes nothing. -/
def Obligations.AnIdleBlockWaits : Prop :=
  ∀ s : State, s.blockNext = true → s.status.busy = false → step s = .next s.turnTaken

/-- R26, R24, R28, R60: every step keeps canonical memory, (BUSY, DONE) never both 1, ERR 0 before completion, CMD the latched
word while BUSY, and well-formed launch parameters. -/
def Obligations.StepKeepsTheInvariant : Prop :=
  ∀ s t : State, s.inv = true → step s = .next t → t.inv = true

/-- R10, R64: no step changes a launch parameter. -/
def Obligations.StepKeepsTheLaunch : Prop :=
  ∀ s t : State, step s = .next t → t.launch = s.launch

/-- R78, R270: while BUSY no move of the host but reset changes the command word, the latch or BUSY. -/
def Obligations.AcceptedCommandCannotBeChanged : Prop :=
  ∀ (m : HostMove) (s t : State), (∀ draws junk, m ≠ .reset draws junk) → s.status.busy = true →
    hostTurn m s = .next t → t.latch = s.latch ∧ t.cmd = s.cmd ∧ t.status.busy = true

/-- R40: execution reads only the latch and pixel memory: two states that agree on the latch, memory, launch parameters,
RESULT and IGN, whatever their operand registers, run to the same memory, RESULT and STATUS. -/
def Obligations.ExecutionReadsOnlyLatchAndMemory : Prop :=
  ∀ (i : Instr) (s r t : State), r.latch.ops = s.latch.ops → r.mem = s.mem → r.launch = s.launch →
    r.result = s.result → r.status.ign = s.status.ign → exec i s = .next t →
    ∃ u, exec i r = .next u ∧ u.mem = t.mem ∧ u.result = t.result ∧ u.status = t.status

/-- R43, R134, R230, R238: a command either completes, with BUSY 0, DONE 1 and nothing but memory, RESULT and STATUS changed
(IGN kept), or is a partial overlap of a command that reads a source, or is stuck; nothing else. -/
def Obligations.EveryCommandCompletesOrStopsByName : Prop :=
  ∀ (i : Instr) (s : State),
    (∃ t, exec i s = .next t ∧
      t = { s with
        mem := t.mem, result := t.result
        status := { busy := false, done := true, ign := s.status.ign, err := t.status.err } }) ∨
    (exec i s = .fault (.undefined .partialOverlap) ∧ usesSrc i = true) ∨
    (exec i s = .fault .stuck ∧ usesDst i = true)

/-- R70, R71, R230: a command that ends in an error, takes no buffer or has an EMPTY region writes no byte; any other writes
only pixels of its resolved region of the destination. -/
def Obligations.CommandsWriteOnlyTheirRegion : Prop :=
  ∀ (i : Instr) (s t : State), exec i s = .next t →
    (t.status.err ≠ .ok → t.mem = s.mem) ∧ (usesDst i = false → t.mem = s.mem) ∧
    (commandRegion i s.latch.ops = none → t.mem = s.mem) ∧
    (∀ first last, commandRegion i s.latch.ops = some (first, last) →
      ∀ a, s.latch.ops.dst.outside first last a → t.mem.read a = s.mem.read a)

/-- R29: who writes RESULT: only BLEND and BLENDL; not an error, not the host; 0 after reset. -/
def Obligations.OnlySinglePixelBlendsWriteResult : Prop :=
  (∀ (i : Instr) (s t : State), exec i s = .next t → t.result ≠ s.result →
    (i = .blend ∨ ∃ w, i = .blendl w) ∧ t.status.err = .ok) ∧
  (∀ s t : State, decode s.latch.cmd = .error .illegal → executeLatched s = .next t → t.result = s.result) ∧
  (∀ (v : Word) (s : State), hostTurn (.writeReg (s.launch.regBase + 0x08) 32 v) s = .next s) ∧
  State.reset.result = 0#32

/-- R103, R275: a `wait` loop over a command that completes ends: poll, the block's step, and a poll that reads BUSY 0 with
DONE 1. -/
def Obligations.WaitEndsWhenTheCommandCompletes : Prop :=
  ∀ (s t : State) (rest : List Move), s.script = .host .wait :: rest → s.status.busy = true →
    executeLatched s = .next t →
    ∃ u, Sys2Proof.core.run 3 s = .next u ∧ u.script = rest ∧ u.received = t.status.word ∧
      u.received.getLsbD 0 = false ∧ u.received.getLsbD 1 = true ∧ u.mem = t.mem ∧ u.result = t.result ∧
      u.status = t.status

/-! ### Leaf units -/

/-- R123: the codec is a bijection. -/
def Obligations.CodecIsABijection : Prop :=
  (∀ p : Word, pack (unpack p) = p) ∧ (∀ c : Channels, unpack (pack c) = c)

/-- R126: the region the normalizer computes, for every width and raw bounds: a negative bound has the width added once, the
start is clamped up to 0 and the end down to width - 1, and a start at or above the width or an end below the start is EMPTY. -/
def Obligations.NormalizerComputesTheClampedRegion : Prop :=
  ∀ (width : Nat) (rawFirst rawLast : Int),
    let s1 : Int := if rawFirst < 0 then rawFirst + width else rawFirst
    let e1 : Int := if rawLast < 0 then rawLast + width else rawLast
    let s2 : Int := if s1 < 0 then 0 else s1
    let e2 : Int := if (width : Int) - 1 < e1 then (width : Int) - 1 else e1
    (resolve width rawFirst rawLast = none ↔ (width : Int) ≤ s2 ∨ e2 < s2) ∧
    (∀ first last : Nat, resolve width rawFirst rawLast = some (first, last) ↔
      s2 < width ∧ s2 ≤ e2 ∧ (first : Int) = s2 ∧ (last : Int) = e2)

/-- R61, R92, R96, R170: the region a legal command word names. Bit 4 of the word takes START, else 0, bit 5 takes END, else
-1, and the width is the destination's LEN / 4, or the lesser of both buffers' for BLENDBUF, OPACM and BRIGHTM (OPC 3, and
OPC 6 or 7 with M). -/
def Obligations.CommandRegionFollowsTheWord : Prop :=
  ∀ (w : Word) (i : Instr) (o : OperandRegs), decode w = .ok i →
    let opc := w.extractLsb' 0 4
    let readsSrc := opc = 3#4 ∨ ((opc = 6#4 ∨ opc = 7#4) ∧ w.getLsbD 6 = true)
    (usesDst i = true ↔ 3#4 ≤ opc) ∧ (usesSrc i = true ↔ readsSrc) ∧
    commandRegion i o =
      resolve (if readsSrc then min (o.dstLen.toNat / 4) (o.srcLen.toNat / 4) else o.dstLen.toNat / 4)
        (if w.getLsbD 4 = true then o.startPos.toInt else 0) (if w.getLsbD 5 = true then o.endPos.toInt else -1)

/-- R127: a resolved region lies inside the width. -/
def Obligations.ResolvedRegionLiesInside : Prop :=
  ∀ (width : Nat) (a b : Int) (first last : Nat), resolve width a b = some (first, last) →
    0 ≤ first ∧ first ≤ last ∧ last + 1 ≤ width

/-- R128: the corner cases of the normalizer, for every width. A negative bound has the width added once: a start at or below
-width acts as 0, an end below -width is EMPTY. -/
def Obligations.NormalizerCornerCases : Prop :=
  (∀ a b : Int, resolve 0 a b = none) ∧ resolve 1 0 (-1) = some (0, 0) ∧
  (∀ (width : Nat) (a b : Int), a ≤ -(width : Int) → resolve width a b = resolve width 0 b) ∧
  (∀ (width : Nat) (a b : Int), -(width : Int) ≤ a → a < 0 → resolve width a b = resolve width (a + width) b) ∧
  (∀ (width : Nat) (a b : Int), -(width : Int) ≤ b → b < 0 → resolve width a b = resolve width a (b + width)) ∧
  resolve 10 (-1) 5 = none ∧ (∀ last : Nat, 9 ≤ last → resolve 10 (-1) last = some (9, 9)) ∧
  (∀ (width : Nat) (a b : Int), b < -(width : Int) → resolve width a b = none)

/-- R130, R132, R134: the interpolator's value, its truncation toward zero with the example of R132, and its guard. -/
def Obligations.InterpolatorValueAndGuard : Prop :=
  (∀ v f a b : Int, remap v f f a b = .error .remapZeroRange) ∧
  (∀ v fmin fmax tmin tmax : Int, fmax ≠ fmin →
    remap v fmin fmax tmin tmax = .ok (tmin + tdiv ((v - fmin) * (tmax - tmin)) (fmax - fmin))) ∧
  remap 128 0 255 200 100 = .ok 150 ∧
  (∀ n d : Int, d ≠ 0 → tdiv n d = n.sign * d.sign * ((n.natAbs / d.natAbs : Nat) : Int))

/-- R133, R135: for v inside the source range the value lies between both destination ends, in either direction, and is exact
at the ends. -/
def Obligations.InterpolatorStaysBetweenTheEnds : Prop :=
  ∀ v fmin fmax tmin tmax : Int, fmin < fmax → fmin ≤ v → v ≤ fmax →
    min tmin tmax ≤ remapValue v fmin fmax tmin tmax ∧ remapValue v fmin fmax tmin tmax ≤ max tmin tmax ∧
    remapValue fmin fmin fmax tmin tmax = tmin ∧ remapValue fmax fmin fmax tmin tmax = tmax

/-- R137: the closed forms of the calls the commands make. -/
def Obligations.InterpolatorClosedForms : Prop :=
  (∀ x y : Nat, x ≤ 255 → y ≤ 255 →
    remapValue x 0 255 0 y = ((x * y / 255 : Nat) : Int) ∧ remapValue y 0 255 0 x = remapValue x 0 255 0 y) ∧
  (∀ x : Nat, x ≤ 65025 → remapValue x 0 65025 0 255 = ((x / 255 : Nat) : Int)) ∧
  (∀ x : Nat, x ≤ 65280 → remapValue x 0 65280 0 255 = ((x / 256 : Nat) : Int)) ∧
  (∀ w cb ca : Int, 0 ≤ w → w ≤ 255 → remapValue w 0 255 cb ca = cb + (w * (ca - cb)).tdiv 255) ∧
  (∀ k n c1 c2 : Int, 0 < k → k < n → remapValue k 0 n c1 c2 = c1 + (k * (c2 - c1)).tdiv n)

/-- R150: the four lanes of `blend_pair`, each RGB term truncated on its own, no lane cut off. -/
def Obligations.BlendPairLanes : Prop :=
  ∀ c1 c2 : Word,
    (alphaOf c2 = 0#8 → blendPair c1 c2 = c1) ∧
    (alphaOf c2 ≠ 0#8 →
      (unpack (blendPair c1 c2)).a.toNat =
        (unpack c1).a.toNat + (255 - (unpack c1).a.toNat) * (unpack c2).a.toNat / 255 ∧
      (unpack (blendPair c1 c2)).r.toNat =
        (255 - (unpack c2).a.toNat) * (unpack c1).r.toNat / 255 + (unpack c2).a.toNat * (unpack c2).r.toNat / 255 ∧
      (unpack (blendPair c1 c2)).g.toNat =
        (255 - (unpack c2).a.toNat) * (unpack c1).g.toNat / 255 + (unpack c2).a.toNat * (unpack c2).g.toNat / 255 ∧
      (unpack (blendPair c1 c2)).b.toNat =
        (255 - (unpack c2).a.toNat) * (unpack c1).b.toNat / 255 + (unpack c2).a.toNat * (unpack c2).b.toNat / 255)

/-- R151: the properties of `blend_pair`. -/
def Obligations.BlendPairProperties : Prop :=
  (∀ c1 c2 : Word,
    (alphaOf c2 ≠ 0#8 →
      (unpack (blendPair c1 c2)).r.toNat ≤
        ((255 - (unpack c2).a.toNat) * (unpack c1).r.toNat + (unpack c2).a.toNat * (unpack c2).r.toNat) / 255 ∧
      (unpack (blendPair c1 c2)).g.toNat ≤
        ((255 - (unpack c2).a.toNat) * (unpack c1).g.toNat + (unpack c2).a.toNat * (unpack c2).g.toNat) / 255 ∧
      (unpack (blendPair c1 c2)).b.toNat ≤
        ((255 - (unpack c2).a.toNat) * (unpack c1).b.toNat + (unpack c2).a.toNat * (unpack c2).b.toNat) / 255) ∧
    (alphaOf c2 ≠ 0#8 →
      (alphaOf (blendPair c1 c2)).toNat =
        (unpack c1).a.toNat + (255 - (unpack c1).a.toNat) * (unpack c2).a.toNat / 255) ∧
    (unpack c1).a.toNat + (255 - (unpack c1).a.toNat) * (unpack c2).a.toNat / 255 ≤ 255 ∧
    (alphaOf c2 = 0#8 → blendPair c1 c2 = c1 ∧
      pack { a := blendAlpha (unpack c1).a 0#8, r := blendLane 0#8 (unpack c1).r (unpack c2).r,
             g := blendLane 0#8 (unpack c1).g (unpack c2).g, b := blendLane 0#8 (unpack c1).b (unpack c2).b } = c1) ∧
    (alphaOf c2 = 255#8 → blendPair c1 c2 = c2) ∧
    (alphaOf c1 = 0#8 → alphaOf c2 ≠ 0#8 → alphaOf (blendPair c1 c2) = alphaOf c2) ∧
    (alphaOf c1).toNat ≤ (alphaOf (blendPair c1 c2)).toNat) ∧
  (∃ c1 c2 : Word, blendPair c1 c2 ≠ blendPair c2 c1) ∧
  blendPair 0xFFFFFFFF#32 0x01000000#32 = 0xFFFEFEFE#32 ∧ remapValue 254 0 255 0 255 = 254 ∧ remapValue 1 0 255 0 0 = 0

/-- R155: the properties of `blend_linear`, each lane between the two inputs. -/
def Obligations.BlendLinearProperties : Prop :=
  (∀ (ca cb : Word) (w : Byte),
    (min (unpack ca).a.toNat (unpack cb).a.toNat ≤ (unpack (blendLinear ca cb w)).a.toNat ∧
      (unpack (blendLinear ca cb w)).a.toNat ≤ max (unpack ca).a.toNat (unpack cb).a.toNat) ∧
    (min (unpack ca).r.toNat (unpack cb).r.toNat ≤ (unpack (blendLinear ca cb w)).r.toNat ∧
      (unpack (blendLinear ca cb w)).r.toNat ≤ max (unpack ca).r.toNat (unpack cb).r.toNat) ∧
    (min (unpack ca).g.toNat (unpack cb).g.toNat ≤ (unpack (blendLinear ca cb w)).g.toNat ∧
      (unpack (blendLinear ca cb w)).g.toNat ≤ max (unpack ca).g.toNat (unpack cb).g.toNat) ∧
    (min (unpack ca).b.toNat (unpack cb).b.toNat ≤ (unpack (blendLinear ca cb w)).b.toNat ∧
      (unpack (blendLinear ca cb w)).b.toNat ≤ max (unpack ca).b.toNat (unpack cb).b.toNat)) ∧
  (∀ ca cb : Word, blendLinear ca cb 0#8 = cb ∧ blendLinear ca cb 255#8 = ca) ∧
  blendLinear 0xFFFFFFFF#32 0#32 128#8 = 0x80808080#32 ∧ blendLinear 0#32 0xFFFFFFFF#32 128#8 = 0x7F7F7F7F#32 ∧
  (∃ c1 c2 : Word, blendLinear c1 c2 255#8 ≠ blendPair c1 c2 ∧ blendLinear c1 c2 255#8 ≠ blendPair c2 c1)

/-- R173: the four lanes of `grad_pixel` for an offset inside the gradient, each between both ends. -/
def Obligations.GradientPixelLanes : Prop :=
  ∀ (c1 c2 : Word) (k n : Nat), 0 < k → k < n →
    ∀ ch ∈ [Channels.a, Channels.r, Channels.g, Channels.b],
      ((ch (unpack (gradPixel c1 c2 k n))).toNat : Int) =
          (ch (unpack c1)).toNat +
            ((k : Int) * (((ch (unpack c2)).toNat : Int) - (ch (unpack c1)).toNat)).tdiv n ∧
        min (ch (unpack c1)).toNat (ch (unpack c2)).toNat ≤ (ch (unpack (gradPixel c1 c2 k n))).toNat ∧
        (ch (unpack (gradPixel c1 c2 k n))).toNat ≤ max (ch (unpack c1)).toNat (ch (unpack c2)).toNat

/-- R200 to R204: what the four scalers make of a pixel, lane by lane: a scale up to 255 is floor(k*x/255), one above it
min(x + floor(x*(k-255)/256), 255), and a mask factor is floor(m*x/255). -/
def Obligations.ScaledPixelLanes : Prop :=
  let scaled (k x : Nat) : Nat := if k ≤ 255 then k * x / 255 else min (x + x * (k - 255) / 256) 255
  (∀ (k : BitVec 9) (p : Word),
    (unpack (opacityPixel k p)).a.toNat = scaled k.toNat (unpack p).a.toNat ∧
    (unpack (opacityPixel k p)).r = (unpack p).r ∧ (unpack (opacityPixel k p)).g = (unpack p).g ∧
    (unpack (opacityPixel k p)).b = (unpack p).b ∧
    (unpack (brightnessPixel k p)).a = (unpack p).a ∧
    (unpack (brightnessPixel k p)).r.toNat = scaled k.toNat (unpack p).r.toNat ∧
    (unpack (brightnessPixel k p)).g.toNat = scaled k.toNat (unpack p).g.toNat ∧
    (unpack (brightnessPixel k p)).b.toNat = scaled k.toNat (unpack p).b.toNat) ∧
  (∀ p m : Word,
    (unpack (maskOpacityPixel p m)).a.toNat = (unpack m).a.toNat * (unpack p).a.toNat / 255 ∧
    (unpack (maskOpacityPixel p m)).r = (unpack p).r ∧ (unpack (maskOpacityPixel p m)).g = (unpack p).g ∧
    (unpack (maskOpacityPixel p m)).b = (unpack p).b ∧
    (∀ fn, (unpack (maskBrightnessPixel fn p m)).a = (unpack p).a) ∧
    (unpack (maskBrightnessPixel .standard p m)).r.toNat = (unpack m).a.toNat * (unpack p).r.toNat / 255 ∧
    (unpack (maskBrightnessPixel .standard p m)).g.toNat = (unpack m).a.toNat * (unpack p).g.toNat / 255 ∧
    (unpack (maskBrightnessPixel .standard p m)).b.toNat = (unpack m).a.toNat * (unpack p).b.toNat / 255)

/-- R205: identity at 255 and 256, zero at 0, doubling with saturation at 511, the down-scale's truncation, and growth with
the scale. -/
def Obligations.ScaleFunctionProperties : Prop :=
  (∀ p : Word, opacityPixel 255#9 p = p ∧ opacityPixel 256#9 p = p ∧ brightnessPixel 255#9 p = p ∧
    brightnessPixel 256#9 p = p) ∧
  (∀ x : Byte, opacityLane 0#9 x = 0#8 ∧ brightnessLane 0#9 x = 0#8 ∧
    (opacityLane 511#9 x).toNat = min (2 * x.toNat) 255 ∧ (brightnessLane 511#9 x).toNat = min (2 * x.toNat) 255 ∧
    (x ≠ 0#8 → (opacityLane 254#9 x).toNat = x.toNat - 1)) ∧
  opDown 1 255#8 = 1#8 ∧
  (∀ (x : Byte) (k k' : BitVec 9), k ≤ k' →
    (opacityLane k x).toNat ≤ (opacityLane k' x).toNat ∧ (brightnessLane k x).toNat ≤ (brightnessLane k' x).toNat)

/-! ### What each command does -/

/-- BLEND (R152): from every state it completes, RESULT the blend of the two latched colors and nothing else but STATUS
changed; the blend's lanes are those of R150. -/
def Obligations.BlendWritesTheBlendToResult : Prop :=
  ∀ s : State, ∃ t, exec .blend s = .next t ∧
    t = { s with
      result := t.result
      status := { busy := false, done := true, ign := s.status.ign, err := .ok } } ∧
    (alphaOf s.latch.ops.color2 = 0#8 → t.result = s.latch.ops.color1) ∧
    (alphaOf s.latch.ops.color2 ≠ 0#8 →
      (unpack t.result).a.toNat =
        (unpack s.latch.ops.color1).a.toNat +
          (255 - (unpack s.latch.ops.color1).a.toNat) * (unpack s.latch.ops.color2).a.toNat / 255 ∧
      ∀ ch ∈ [Channels.r, Channels.g, Channels.b],
        (ch (unpack t.result)).toNat =
          (255 - (unpack s.latch.ops.color2).a.toNat) * (ch (unpack s.latch.ops.color1)).toNat / 255 +
            (unpack s.latch.ops.color2).a.toNat * (ch (unpack s.latch.ops.color2)).toNat / 255)

/-- BLENDL (R153, R154): from every state it completes, each lane of RESULT the cross-fade truncated toward color_b, and
nothing else but STATUS changed. -/
def Obligations.BlendlWritesTheCrossFadeToResult : Prop :=
  ∀ (alpha : BitVec 8) (s : State), ∃ t, exec (.blendl alpha) s = .next t ∧
    t = { s with
      result := t.result
      status := { busy := false, done := true, ign := s.status.ign, err := .ok } } ∧
    ∀ ch ∈ [Channels.a, Channels.r, Channels.g, Channels.b],
      ((ch (unpack t.result)).toNat : Int) =
        (ch (unpack s.latch.ops.color2)).toNat +
          ((alpha.toNat : Int) * (((ch (unpack s.latch.ops.color1)).toNat : Int) -
            (ch (unpack s.latch.ops.color2)).toNat)).tdiv 255

/-- BLENDBUF (R171, R172): it completes where every access it makes is admitted; each destination pixel of the region becomes
the blend of the source pixel of the same index over it, and nothing else changes. -/
def Obligations.BlendbufBlendsSourceOverDestination : Prop :=
  ∀ (sBit eBit : Bool) (s : State) (first last : Nat), RegionReady (.blendbuf sBit eBit) s first last →
    (∀ i, i ≤ last → first ≤ i →
      admits s.launch .read (s.latch.ops.src.pixelAddr i) = true ∧
      (alphaOf (s.pixel s.latch.ops.src i) ≠ 0#8 → admits s.launch .write (s.latch.ops.dst.pixelAddr i) = true) ∧
      (alphaOf (s.pixel s.latch.ops.src i) ≠ 0#8 → alphaOf (s.pixel s.latch.ops.src i) ≠ 255#8 →
        admits s.launch .read (s.latch.ops.dst.pixelAddr i) = true)) →
    ∃ t, exec (.blendbuf sBit eBit) s = .next t ∧ t = s.doneFrom .ok t.mem ∧
      (∀ i, first ≤ i → i ≤ last →
        t.pixel s.latch.ops.dst i = blendPair (s.pixel s.latch.ops.dst i) (s.pixel s.latch.ops.src i)) ∧
      (∀ a, s.latch.ops.dst.outside first last a → t.mem.read a = s.mem.read a)

/-- GRAD (R174, R175): the first pixel becomes COLOR1 exactly, the last of a longer region COLOR2 exactly, an interior pixel
the gradient at its offset from the resolved start, and nothing else changes. -/
def Obligations.GradWritesTheGradient : Prop :=
  ∀ (sBit eBit : Bool) (s : State) (first last : Nat), RegionReady (.grad sBit eBit) s first last →
    admitsPixels s.launch .write s.latch.ops.dst first last →
    ∃ t, exec (.grad sBit eBit) s = .next t ∧ t = s.doneFrom .ok t.mem ∧
      t.pixel s.latch.ops.dst first = s.latch.ops.color1 ∧
      (first < last → t.pixel s.latch.ops.dst last = s.latch.ops.color2) ∧
      (∀ i, first < i → i < last →
        t.pixel s.latch.ops.dst i =
          gradPixel s.latch.ops.color1 s.latch.ops.color2 (i - first) (last - first)) ∧
      (∀ a, s.latch.ops.dst.outside first last a → t.mem.read a = s.mem.read a)

/-- BLENDC (R176): with a color that is not transparent, each pixel of the region becomes the blend of the color over it, and
nothing else changes. -/
def Obligations.BlendcBlendsTheColorOverRegion : Prop :=
  ∀ (sBit eBit : Bool) (s : State) (first last : Nat), RegionReady (.blendc sBit eBit) s first last →
    alphaOf s.latch.ops.color1 ≠ 0#8 →
    admitsPixels s.launch .read s.latch.ops.dst first last → admitsPixels s.launch .write s.latch.ops.dst first last →
    ∃ t, exec (.blendc sBit eBit) s = .next t ∧ t = s.doneFrom .ok t.mem ∧
      (∀ i, first ≤ i → i ≤ last →
        t.pixel s.latch.ops.dst i = blendPair (s.pixel s.latch.ops.dst i) s.latch.ops.color1) ∧
      (∀ a, s.latch.ops.dst.outside first last a → t.mem.read a = s.mem.read a)

/-- OPAC (R201): each pixel of the region has its alpha scaled, and nothing else changes. -/
def Obligations.OpacScalesAlphaOverRegion : Prop :=
  ∀ (sBit eBit : Bool) (k : BitVec 9) (s : State) (first last : Nat), RegionReady (.opac sBit eBit k) s first last →
    admitsPixels s.launch .read s.latch.ops.dst first last → admitsPixels s.launch .write s.latch.ops.dst first last →
    ∃ t, exec (.opac sBit eBit k) s = .next t ∧ t = s.doneFrom .ok t.mem ∧
      (∀ i, first ≤ i → i ≤ last → t.pixel s.latch.ops.dst i = opacityPixel k (s.pixel s.latch.ops.dst i)) ∧
      (∀ a, s.latch.ops.dst.outside first last a → t.mem.read a = s.mem.read a)

/-- OPACM (R202): each pixel of the region has its alpha scaled by the alpha of the mask pixel of the same index, and nothing
else changes. -/
def Obligations.OpacmScalesAlphaByTheMask : Prop :=
  ∀ (sBit eBit : Bool) (s : State) (first last : Nat), RegionReady (.opacm sBit eBit) s first last →
    admitsPixels s.launch .read s.latch.ops.dst first last → admitsPixels s.launch .read s.latch.ops.src first last →
    admitsPixels s.launch .write s.latch.ops.dst first last →
    ∃ t, exec (.opacm sBit eBit) s = .next t ∧ t = s.doneFrom .ok t.mem ∧
      (∀ i, first ≤ i → i ≤ last →
        t.pixel s.latch.ops.dst i = maskOpacityPixel (s.pixel s.latch.ops.dst i) (s.pixel s.latch.ops.src i)) ∧
      (∀ a, s.latch.ops.dst.outside first last a → t.mem.read a = s.mem.read a)

/-- BRIGHT (R203): each pixel of the region has its R, G and B scaled, and nothing else changes. -/
def Obligations.BrightScalesColorsOverRegion : Prop :=
  ∀ (sBit eBit : Bool) (k : BitVec 9) (s : State) (first last : Nat), RegionReady (.bright sBit eBit k) s first last →
    admitsPixels s.launch .read s.latch.ops.dst first last → admitsPixels s.launch .write s.latch.ops.dst first last →
    ∃ t, exec (.bright sBit eBit k) s = .next t ∧ t = s.doneFrom .ok t.mem ∧
      (∀ i, first ≤ i → i ≤ last → t.pixel s.latch.ops.dst i = brightnessPixel k (s.pixel s.latch.ops.dst i)) ∧
      (∀ a, s.latch.ops.dst.outside first last a → t.mem.read a = s.mem.read a)

/-- BRIGHTM (R204): each pixel of the region has its R, G and B made by MASK_BRIGHT_FN of the alpha of the mask pixel of the
same index, whatever that function is, and nothing else changes. -/
def Obligations.BrightmScalesColorsByTheMask : Prop :=
  ∀ (sBit eBit : Bool) (s : State) (first last : Nat), RegionReady (.brightm sBit eBit) s first last →
    admitsPixels s.launch .read s.latch.ops.dst first last → admitsPixels s.launch .read s.latch.ops.src first last →
    admitsPixels s.launch .write s.latch.ops.dst first last →
    ∃ t, exec (.brightm sBit eBit) s = .next t ∧ t = s.doneFrom .ok t.mem ∧
      (∀ i, first ≤ i → i ≤ last →
        t.pixel s.latch.ops.dst i =
          maskBrightnessPixel s.launch.maskBright (s.pixel s.latch.ops.dst i) (s.pixel s.latch.ops.src i)) ∧
      (∀ a, s.latch.ops.dst.outside first last a → t.mem.read a = s.mem.read a)

/-- FILL (R220): each pixel of the region becomes COLOR1, whatever its alpha and whatever the pixel held, and nothing else
changes. -/
def Obligations.FillWritesTheColorOverRegion : Prop :=
  ∀ (sBit eBit : Bool) (s : State) (first last : Nat), RegionReady (.fill sBit eBit) s first last →
    admitsPixels s.launch .write s.latch.ops.dst first last →
    ∃ t, exec (.fill sBit eBit) s = .next t ∧ t = s.doneFrom .ok t.mem ∧
      (∀ i, first ≤ i → i ≤ last → t.pixel s.latch.ops.dst i = s.latch.ops.color1) ∧
      (∀ a, s.latch.ops.dst.outside first last a → t.mem.read a = s.mem.read a)

/-! ### Errors, no-ops and stops -/

/-- R129: an EMPTY region with valid buffers is OK with no access, whatever `Mem` admits; an invalid buffer is an error
whatever the region. -/
def Obligations.EmptyRegionIsANoOp : Prop :=
  ∀ (i : Instr) (s : State), usesDst i = true →
    (s.latch.ops.dst.valid = true → (usesSrc i = true → s.latch.ops.src.valid = true) →
      commandRegion i s.latch.ops = none → exec i s = .next (s.doneFrom .ok s.mem)) ∧
    ((s.latch.ops.dst.valid = false ∨ (usesSrc i = true ∧ s.latch.ops.src.valid = false)) →
      exec i s = .next (s.doneFrom .argDst s.mem) ∨ exec i s = .next (s.doneFrom .argSrc s.mem))

/-- R62, R232, R233: a descriptor is valid exactly where its base is not 0, is 4-aligned, and base + LEN is at most 2^32. A
command that takes a destination ends in ARG_DST exactly where that is invalid; one that also reads a source in ARG_SRC
exactly where the destination is valid and the source is not; and nothing but STATUS changes. A descriptor that a command does
not check causes no error. -/
def Obligations.ArgumentErrors : Prop :=
  let bad (base len : Word) : Prop := base = 0#32 ∨ base.toNat % 4 ≠ 0 ∨ 2 ^ 32 < base.toNat + len.toNat
  (∀ base len : Word, Descriptor.valid ⟨base, len⟩ = true ↔ ¬bad base len) ∧
  ∀ (i : Instr) (s : State),
    (i ≠ .blend → (∀ w, i ≠ .blendl w) → bad s.latch.ops.dstBase s.latch.ops.dstLen →
      exec i s = .next (s.doneFrom .argDst s.mem)) ∧
    (∀ sBit eBit, i ∈ [.blendbuf sBit eBit, .opacm sBit eBit, .brightm sBit eBit] →
      ¬bad s.latch.ops.dstBase s.latch.ops.dstLen → bad s.latch.ops.srcBase s.latch.ops.srcLen →
      exec i s = .next (s.doneFrom .argSrc s.mem)) ∧
    (∀ t, exec i s = .next t →
      (t.status.err = .argDst → usesDst i = true ∧ bad s.latch.ops.dstBase s.latch.ops.dstLen) ∧
      (t.status.err = .argSrc → usesSrc i = true ∧ bad s.latch.ops.srcBase s.latch.ops.srcLen) ∧ t.status.err ≠ .illegal)

/-- R176, R177: a transparent color makes BLENDC a no-op with outcome OK, without any access and whatever the region. -/
def Obligations.BlendcTransparentColorIsANoOp : Prop :=
  ∀ (sBit eBit : Bool) (s : State), s.latch.ops.dst.valid = true → alphaOf s.latch.ops.color1 = 0#8 →
    exec (.blendc sBit eBit) s = .next (s.doneFrom .ok s.mem)

/-- R79: a command that reads a source with a different base, some byte of which range it also writes, has no value. -/
def Obligations.PartialOverlapIsUndefined : Prop :=
  ∀ (i : Instr) (s : State) (first last a : Nat), usesSrc i = true → s.latch.ops.dst.valid = true →
    s.latch.ops.src.valid = true → commandRegion i s.latch.ops = some (first, last) →
    s.latch.ops.srcBase ≠ s.latch.ops.dstBase →
    s.latch.ops.srcBase.toNat + 4 * first ≤ a → a < s.latch.ops.srcBase.toNat + 4 * last + 4 →
    s.latch.ops.dstBase.toNat + 4 * first ≤ a → a < s.latch.ops.dstBase.toNat + 4 * last + 4 →
    exec i s = .fault (.undefined .partialOverlap)

/-- R69, R71: where `Mem` refuses an access the command makes at a pixel of its region, the command is stuck (a fault by
log 11). For BLENDBUF that is a source read, a destination write where the source alpha is not 0, or a destination read where
it is neither 0 nor 255. -/
def Obligations.UnadmittedAccessLeavesTheBlockStuck : Prop :=
  ∀ (i : Instr) (s : State) (first last k : Nat), RegionReady i s first last →
    (∀ sBit eBit, i = .blendc sBit eBit → alphaOf s.latch.ops.color1 ≠ 0#8) → first ≤ k → k ≤ last →
    accessDenied i s k = true → exec i s = .fault .stuck

/-! ### Commands against each other -/

/-- R177: BLENDC with an opaque color is FILL over the same region. -/
def Obligations.BlendcWithAnOpaqueColorIsFill : Prop :=
  ∀ (sBit eBit : Bool) (s : State), alphaOf s.latch.ops.color1 = 255#8 →
    (∀ first last, commandRegion (.fill sBit eBit) s.latch.ops = some (first, last) →
      admitsPixels s.launch .read s.latch.ops.dst first last) →
    exec (.blendc sBit eBit) s = exec (.fill sBit eBit) s

/-- R177: BLENDC with color c is BLENDBUF with a source whose every pixel is c and that is at least as long. -/
def Obligations.BlendcIsBlendbufFromAConstantSource : Prop :=
  ∀ (sBit eBit : Bool) (s : State) (first last : Nat), RegionReady (.blendbuf sBit eBit) s first last →
    s.latch.ops.dst.count ≤ s.latch.ops.src.count →
    (∀ i, i < s.latch.ops.src.count → s.pixel s.latch.ops.src i = s.latch.ops.color1) →
    admitsPixels s.launch .read s.latch.ops.src first last → admitsPixels s.launch .read s.latch.ops.dst first last →
    admitsPixels s.launch .write s.latch.ops.dst first last →
    ∃ t u, exec (.blendc sBit eBit) s = .next t ∧ exec (.blendbuf sBit eBit) s = .next u ∧
      ∀ a, t.mem.read a = u.mem.read a

/-- R221: over one region, FILL, then BRIGHT by 255 or 256, then OPAC by 255 or 256, each issued by a CMD write with the operand
registers left as they are: every pixel of the region is the color, and every byte outside it is unchanged. -/
def Obligations.FillThenIdentityScalesIsFill : Prop :=
  ∀ (sBit eBit : Bool) (k k' : BitVec 9) (s : State) (first last : Nat),
    k ∈ [255#9, 256#9] → k' ∈ [255#9, 256#9] → s.regs = s.latch.ops → RegionReady (.fill sBit eBit) s first last →
    admitsPixels s.launch .read s.latch.ops.dst first last → admitsPixels s.launch .write s.latch.ops.dst first last →
    ∃ t u v, exec (.fill sBit eBit) s = .next t ∧
      exec (.bright sBit eBit k) (writeSlot .CMD (encode (.bright sBit eBit k)) t) = .next u ∧
      exec (.opac sBit eBit k') (writeSlot .CMD (encode (.opac sBit eBit k')) u) = .next v ∧
      (∀ i, first ≤ i → i ≤ last → v.pixel s.latch.ops.dst i = s.latch.ops.color1) ∧
      (∀ a, s.latch.ops.dst.outside first last a → v.mem.read a = s.mem.read a)

/-! ### The host's side -/

/-- R23, R20, R25, R29: a register read has no side effect on any state of the block; at each offset of the window it returns
that register, STATUS as its word. -/
def Obligations.RegisterReadsHaveNoSideEffect : Prop :=
  (∀ (addr width : Nat) (s t : State), hostTurn (.readReg addr width) s = .next t →
    t = { s with received := t.received }) ∧
  (∀ s : State, ∀ e ∈ [(0x00, s.cmd), (0x04, s.status.word), (0x08, s.result), (0x0C, s.regs.color1),
      (0x10, s.regs.color2), (0x14, s.regs.startPos), (0x18, s.regs.endPos), (0x1C, s.regs.dstBase),
      (0x20, s.regs.dstLen), (0x24, s.regs.srcBase), (0x28, s.regs.srcLen)],
    hostTurn (.readReg (s.launch.regBase + e.1) 32) s = .next { s with received := e.2 }) ∧
  (∀ (r : Reg) (s : State), hostTurn (.readReg (s.launch.regBase + r.offset) 32) s =
    .next { s with received := readSlot r s })

/-- R22: a reserved offset reads 0 and ignores writes. -/
def Obligations.ReservedOffsetsReadZeroAndIgnoreWrites : Prop :=
  ∀ (off : Nat) (v : Word) (s : State), off ∈ [0x2C, 0x30, 0x34, 0x38, 0x3C] →
    hostTurn (.readReg (s.launch.regBase + off) 32) s = .next { s with received := 0#32 } ∧
    hostTurn (.writeReg (s.launch.regBase + off) 32 v) s = .next s

/-- R21: an access of another width or at an unaligned offset of the window is refused. -/
def Obligations.OddRegisterAccessesAreRefused : Prop :=
  ∀ (off width : Nat) (v : Word) (s : State), off < 64 → (width ≠ 32 ∨ off % 4 ≠ 0) →
    hostTurn (.readReg (s.launch.regBase + off) width) s = .refused .registerAccess ∧
    hostTurn (.writeReg (s.launch.regBase + off) width v) s = .refused .registerAccess

/-- R24: a write of CMD issues a command, or is dropped while BUSY and sets IGN. CMD reads back the last accepted word: it
reads the word after acceptance, and only another acceptance or a reset changes it; after reset it reads 0. -/
def Obligations.CmdWriteIssuesOrIsDropped : Prop :=
  (∀ (v : Word) (s : State), s.status.busy = true →
    hostTurn (.writeReg s.launch.regBase 32 v) s = .next { s with status := { s.status with ign := true } }) ∧
  (∀ (v : Word) (s : State), s.status.busy = false →
    ∃ t, hostTurn (.writeReg s.launch.regBase 32 v) s = .next t ∧
      t = { s with
        cmd := v
        latch := { cmd := v, ops := s.regs }
        status := { busy := true, done := false, ign := s.status.ign, err := .ok } } ∧
      hostTurn (.readReg s.launch.regBase 32) t = .next { t with received := v }) ∧
  (∀ s t : State, blockTurn s = .next t → t.cmd = s.cmd) ∧
  (∀ (m : HostMove) (s t : State), hostTurn m s = .next t → t.cmd ≠ s.cmd →
    (∃ v, m = .writeReg s.launch.regBase 32 v ∧ t.cmd = v ∧ s.status.busy = false) ∨
    ∃ draws junk, m = .reset draws junk) ∧
  readSlot .CMD State.reset = 0#32

/-- R27: a write of w to STATUS clears IGN if w[2] is 1, and does nothing else. -/
def Obligations.StatusWriteClearsOnlyIgn : Prop :=
  ∀ (w : Word) (s : State),
    hostTurn (.writeReg (s.launch.regBase + 0x04) 32 w) s =
      .next (if w.getLsbD 2 = true then { s with status := { s.status with ign := false } } else s)

/-- R25, R28: the bits a host read of STATUS, at offset 0x04, returns. -/
def Obligations.StatusWordLayout : Prop :=
  ∀ s : State, ∃ v : Word,
    hostTurn (.readReg (s.launch.regBase + 0x04) 32) s = .next { s with received := v } ∧
    v = s.status.word ∧ v.getLsbD 0 = s.status.busy ∧ v.getLsbD 1 = s.status.done ∧ v.getLsbD 2 = s.status.ign ∧
    v.getLsbD 3 = false ∧
    v.extractLsb' 4 2 =
      (match s.status.err with
        | .ok => 0#2
        | .illegal => 1#2
        | .argDst => 2#2
        | .argSrc => 3#2) ∧
    v.extractLsb' 6 26 = 0#26

/-- R38: a write of an operand register lands at once, BUSY or not, changes no other register, and leaves the latch, memory
and STATUS alone: only commands accepted after it see it. -/
def Obligations.OperandWritesLandAtOnce : Prop :=
  ∀ (r : Reg) (v : Word) (s : State), r ≠ .CMD → r ≠ .STATUS → r ≠ .RESULT →
    ∃ t, hostTurn (.writeReg (s.launch.regBase + r.offset) 32 v) s = .next t ∧ t = { s with regs := t.regs } ∧
      readSlot r t = v ∧ (∀ q, q ≠ r → readSlot q t = readSlot q s) ∧
      (t.status.busy = false → ∀ w : Word, (writeSlot .CMD w t).latch.ops = t.regs)

/-- R64, R66, R67: a pixel word the host stores lies in memory in PIXEL_BYTE_ORDER, changes no other byte, and reads back. -/
def Obligations.PixelBytesFollowTheByteOrder : Prop :=
  ∀ (addr v : Word) (s : State), addr.toNat % 4 = 0 → handedOverWord s addr.toNat = false →
    admits s.launch .write addr.toNat = true →
    ∃ t, hostTurn (.storePixel addr v) s = .next t ∧ t = { s with mem := t.mem } ∧
      (s.launch.byteOrder = .le →
        t.mem.read addr.toNat = (unpack v).b ∧ t.mem.read (addr.toNat + 1) = (unpack v).g ∧
        t.mem.read (addr.toNat + 2) = (unpack v).r ∧ t.mem.read (addr.toNat + 3) = (unpack v).a) ∧
      (s.launch.byteOrder = .be →
        t.mem.read addr.toNat = (unpack v).a ∧ t.mem.read (addr.toNat + 1) = (unpack v).r ∧
        t.mem.read (addr.toNat + 2) = (unpack v).g ∧ t.mem.read (addr.toNat + 3) = (unpack v).b) ∧
      (∀ a, a < addr.toNat ∨ addr.toNat + 4 ≤ a → t.mem.read a = s.mem.read a) ∧
      (admits s.launch .read addr.toNat = true →
        ∀ expected, hostTurn (.loadPixel addr expected) t = .next { t with received := v })

/-- R76, R241, R101: while BUSY, an access of the host to a byte of the whole range of a descriptor that the running command
checks, by a byte move or by a pixel-word move (`ldm`, `stm`) one of whose four bytes lies there, is no move of the host. That
the whole ranges of the checked descriptors are meant, valid or not, is the model's reading (log 16). -/
def Obligations.HandedOverBytesHaveNoHostMove : Prop :=
  ∀ (i : Instr) (s : State) (a : Nat), s.status.busy = true → decode s.latch.cmd = .ok i →
    ((usesDst i = true ∧ s.latch.ops.dstBase.toNat ≤ a ∧
        a < s.latch.ops.dstBase.toNat + s.latch.ops.dstLen.toNat) ∨
      (usesSrc i = true ∧ s.latch.ops.srcBase.toNat ≤ a ∧
        a < s.latch.ops.srcBase.toNat + s.latch.ops.srcLen.toNat)) →
    (∀ (addr : Word) (v : Byte), addr.toNat = a →
      hostTurn (.loadByte addr) s = .refused .hostDuty ∧ hostTurn (.storeByte addr v) s = .refused .hostDuty) ∧
    (∀ addr v : Word, addr.toNat % 4 = 0 → addr.toNat ≤ a → a < addr.toNat + 4 →
      hostTurn (.loadPixel addr v) s = .refused .hostDuty ∧ hostTurn (.storePixel addr v) s = .refused .hostDuty)
end

