-- ==== Sys2Proof/Laws/State.lean ====
section
/-! SUPPORT. One lemma per field per update of `State` and `Status`, each true by unfolding the update once. -/

namespace Sys2Proof.Machine

@[simp] theorem State.complete_cmd (e : ErrCode) (s : State) : (s.complete e).cmd = s.cmd := rfl
@[simp] theorem State.complete_status (e : ErrCode) (s : State) : (s.complete e).status = s.status.completed e := rfl
@[simp] theorem State.complete_result (e : ErrCode) (s : State) : (s.complete e).result = s.result := rfl
@[simp] theorem State.complete_regs (e : ErrCode) (s : State) : (s.complete e).regs = s.regs := rfl
@[simp] theorem State.complete_latch (e : ErrCode) (s : State) : (s.complete e).latch = s.latch := rfl
@[simp] theorem State.complete_mem (e : ErrCode) (s : State) : (s.complete e).mem = s.mem := rfl
@[simp] theorem State.complete_launch (e : ErrCode) (s : State) : (s.complete e).launch = s.launch := rfl
@[simp] theorem State.complete_script (e : ErrCode) (s : State) : (s.complete e).script = s.script := rfl
@[simp] theorem State.complete_received (e : ErrCode) (s : State) : (s.complete e).received = s.received := rfl

@[simp] theorem State.withResult_cmd (v : Word) (s : State) : (s.withResult v).cmd = s.cmd := rfl
@[simp] theorem State.withResult_status (v : Word) (s : State) : (s.withResult v).status = s.status := rfl
@[simp] theorem State.withResult_result (v : Word) (s : State) : (s.withResult v).result = v := rfl
@[simp] theorem State.withResult_regs (v : Word) (s : State) : (s.withResult v).regs = s.regs := rfl
@[simp] theorem State.withResult_latch (v : Word) (s : State) : (s.withResult v).latch = s.latch := rfl
@[simp] theorem State.withResult_mem (v : Word) (s : State) : (s.withResult v).mem = s.mem := rfl
@[simp] theorem State.withResult_launch (v : Word) (s : State) : (s.withResult v).launch = s.launch := rfl
@[simp] theorem State.withResult_script (v : Word) (s : State) : (s.withResult v).script = s.script := rfl
@[simp] theorem State.withResult_received (v : Word) (s : State) : (s.withResult v).received = s.received := rfl

@[simp] theorem State.withMem_cmd (m : Memory) (s : State) : (s.withMem m).cmd = s.cmd := rfl
@[simp] theorem State.withMem_status (m : Memory) (s : State) : (s.withMem m).status = s.status := rfl
@[simp] theorem State.withMem_result (m : Memory) (s : State) : (s.withMem m).result = s.result := rfl
@[simp] theorem State.withMem_regs (m : Memory) (s : State) : (s.withMem m).regs = s.regs := rfl
@[simp] theorem State.withMem_latch (m : Memory) (s : State) : (s.withMem m).latch = s.latch := rfl
@[simp] theorem State.withMem_mem (m : Memory) (s : State) : (s.withMem m).mem = m := rfl
@[simp] theorem State.withMem_launch (m : Memory) (s : State) : (s.withMem m).launch = s.launch := rfl
@[simp] theorem State.withMem_script (m : Memory) (s : State) : (s.withMem m).script = s.script := rfl
@[simp] theorem State.withMem_received (m : Memory) (s : State) : (s.withMem m).received = s.received := rfl

@[simp] theorem State.accept_cmd (v : Word) (s : State) : (s.accept v).cmd = v := rfl
@[simp] theorem State.accept_status (v : Word) (s : State) : (s.accept v).status = s.status.accepted := rfl
@[simp] theorem State.accept_result (v : Word) (s : State) : (s.accept v).result = s.result := rfl
@[simp] theorem State.accept_regs (v : Word) (s : State) : (s.accept v).regs = s.regs := rfl
@[simp] theorem State.accept_latch (v : Word) (s : State) : (s.accept v).latch = { cmd := v, ops := s.regs } := rfl
@[simp] theorem State.accept_mem (v : Word) (s : State) : (s.accept v).mem = s.mem := rfl
@[simp] theorem State.accept_launch (v : Word) (s : State) : (s.accept v).launch = s.launch := rfl
@[simp] theorem State.accept_script (v : Word) (s : State) : (s.accept v).script = s.script := rfl
@[simp] theorem State.accept_received (v : Word) (s : State) : (s.accept v).received = s.received := rfl

@[simp] theorem State.withRegs_cmd (o : OperandRegs) (s : State) : (s.withRegs o).cmd = s.cmd := rfl
@[simp] theorem State.withRegs_status (o : OperandRegs) (s : State) : (s.withRegs o).status = s.status := rfl
@[simp] theorem State.withRegs_result (o : OperandRegs) (s : State) : (s.withRegs o).result = s.result := rfl
@[simp] theorem State.withRegs_regs (o : OperandRegs) (s : State) : (s.withRegs o).regs = o := rfl
@[simp] theorem State.withRegs_latch (o : OperandRegs) (s : State) : (s.withRegs o).latch = s.latch := rfl
@[simp] theorem State.withRegs_mem (o : OperandRegs) (s : State) : (s.withRegs o).mem = s.mem := rfl
@[simp] theorem State.withRegs_launch (o : OperandRegs) (s : State) : (s.withRegs o).launch = s.launch := rfl
@[simp] theorem State.withRegs_script (o : OperandRegs) (s : State) : (s.withRegs o).script = s.script := rfl
@[simp] theorem State.withRegs_received (o : OperandRegs) (s : State) : (s.withRegs o).received = s.received := rfl

@[simp] theorem State.withScript_cmd (l : List Move) (s : State) : (s.withScript l).cmd = s.cmd := rfl
@[simp] theorem State.withScript_status (l : List Move) (s : State) : (s.withScript l).status = s.status := rfl
@[simp] theorem State.withScript_result (l : List Move) (s : State) : (s.withScript l).result = s.result := rfl
@[simp] theorem State.withScript_regs (l : List Move) (s : State) : (s.withScript l).regs = s.regs := rfl
@[simp] theorem State.withScript_latch (l : List Move) (s : State) : (s.withScript l).latch = s.latch := rfl
@[simp] theorem State.withScript_mem (l : List Move) (s : State) : (s.withScript l).mem = s.mem := rfl
@[simp] theorem State.withScript_launch (l : List Move) (s : State) : (s.withScript l).launch = s.launch := rfl
@[simp] theorem State.withScript_script (l : List Move) (s : State) : (s.withScript l).script = l := rfl
@[simp] theorem State.withScript_received (l : List Move) (s : State) : (s.withScript l).received = s.received := rfl

@[simp] theorem State.receive_cmd (v : Word) (s : State) : (s.receive v).cmd = s.cmd := rfl
@[simp] theorem State.receive_status (v : Word) (s : State) : (s.receive v).status = s.status := rfl
@[simp] theorem State.receive_result (v : Word) (s : State) : (s.receive v).result = s.result := rfl
@[simp] theorem State.receive_regs (v : Word) (s : State) : (s.receive v).regs = s.regs := rfl
@[simp] theorem State.receive_latch (v : Word) (s : State) : (s.receive v).latch = s.latch := rfl
@[simp] theorem State.receive_mem (v : Word) (s : State) : (s.receive v).mem = s.mem := rfl
@[simp] theorem State.receive_launch (v : Word) (s : State) : (s.receive v).launch = s.launch := rfl
@[simp] theorem State.receive_script (v : Word) (s : State) : (s.receive v).script = s.script := rfl
@[simp] theorem State.receive_received (v : Word) (s : State) : (s.receive v).received = v := rfl

@[simp] theorem State.resetRegisters_cmd (junk : Latch) (s : State) : (s.resetRegisters junk).cmd = 0#32 := rfl
@[simp] theorem State.resetRegisters_status (junk : Latch) (s : State) : (s.resetRegisters junk).status = Status.reset := rfl
@[simp] theorem State.resetRegisters_result (junk : Latch) (s : State) : (s.resetRegisters junk).result = 0#32 := rfl
@[simp] theorem State.resetRegisters_regs (junk : Latch) (s : State) : (s.resetRegisters junk).regs = OperandRegs.reset := rfl
@[simp] theorem State.resetRegisters_latch (junk : Latch) (s : State) : (s.resetRegisters junk).latch = junk := rfl
@[simp] theorem State.resetRegisters_mem (junk : Latch) (s : State) : (s.resetRegisters junk).mem = s.mem := rfl
@[simp] theorem State.resetRegisters_launch (junk : Latch) (s : State) : (s.resetRegisters junk).launch = s.launch := rfl
@[simp] theorem State.resetRegisters_script (junk : Latch) (s : State) : (s.resetRegisters junk).script = s.script := rfl
@[simp] theorem State.resetRegisters_received (junk : Latch) (s : State) : (s.resetRegisters junk).received = s.received := rfl

@[simp] theorem Status.accepted_busy (st : Status) : (st.accepted).busy = true := rfl
@[simp] theorem Status.accepted_done (st : Status) : (st.accepted).done = false := rfl
@[simp] theorem Status.accepted_ign (st : Status) : (st.accepted).ign = st.ign := rfl
@[simp] theorem Status.accepted_err (st : Status) : (st.accepted).err = .ok := rfl

@[simp] theorem Status.completed_busy (e : ErrCode) (st : Status) : (st.completed e).busy = false := rfl
@[simp] theorem Status.completed_done (e : ErrCode) (st : Status) : (st.completed e).done = true := rfl
@[simp] theorem Status.completed_ign (e : ErrCode) (st : Status) : (st.completed e).ign = st.ign := rfl
@[simp] theorem Status.completed_err (e : ErrCode) (st : Status) : (st.completed e).err = e := rfl

@[simp] theorem Status.dropped_busy (st : Status) : (st.dropped).busy = st.busy := rfl
@[simp] theorem Status.dropped_done (st : Status) : (st.dropped).done = st.done := rfl
@[simp] theorem Status.dropped_ign (st : Status) : (st.dropped).ign = true := rfl
@[simp] theorem Status.dropped_err (st : Status) : (st.dropped).err = st.err := rfl

@[simp] theorem Status.written_busy (w : Word) (st : Status) : (st.written w).busy = st.busy := rfl
@[simp] theorem Status.written_done (w : Word) (st : Status) : (st.written w).done = st.done := rfl
@[simp] theorem Status.written_ign (w : Word) (st : Status) : (st.written w).ign = (st.ign && !w.getLsbD 2) := rfl
@[simp] theorem Status.written_err (w : Word) (st : Status) : (st.written w).err = st.err := rfl

@[simp] theorem Status.reset_busy : Status.reset.busy = false := rfl
@[simp] theorem Status.reset_done : Status.reset.done = false := rfl
@[simp] theorem Status.reset_ign : Status.reset.ign = false := rfl
@[simp] theorem Status.reset_err : Status.reset.err = .ok := rfl

end Sys2Proof.Machine
end

