-- ==== Sys2Proof/Laws/Memory.lean ====
section
/-! SUPPORT. Pixel memory: what a byte or a word reads as after a write (R65, R66, R67), and that every memory operation keeps
the canonical form. The read laws hold of every list of cells, canonical or not. -/

namespace Sys2Proof.Machine

/-! ### Bytes -/

theorem Memory.read_unlist_self (m : Memory) (a : Nat) : (m.unlist a).read a = Config.unlistedByte := by
  induction m with
  | nil => rfl
  | cons c rest ih =>
    obtain ⟨x, v⟩ := c
    by_cases h : x = a
    · simpa [Memory.unlist, h] using ih
    · simpa [Memory.unlist, h, Memory.read] using ih

theorem Memory.read_unlist_other (m : Memory) {a b : Nat} (h : b ≠ a) : (m.unlist a).read b = m.read b := by
  induction m with
  | nil => rfl
  | cons c rest ih =>
    obtain ⟨x, v⟩ := c
    by_cases hx : x = a
    · have hb : ¬ x = b := fun e => h (e ▸ hx)
      simpa [Memory.unlist, hx, Memory.read, Ne.symm h] using ih
    · have := ih
      simp only [Memory.unlist] at this
      simp [Memory.unlist, hx, Memory.read, this]

theorem Memory.read_place_other (m : Memory) {a b : Nat} (v : Byte) (h : b ≠ a) : (m.place a v).read b = m.read b := by
  induction m with
  | nil => simp [Memory.place, Memory.read, Ne.symm h]
  | cons c rest ih =>
    obtain ⟨x, w⟩ := c
    by_cases hx : a < x
    · simp [Memory.place, hx, Memory.read, Ne.symm h]
    · simp [Memory.place, hx, Memory.read, ih]

theorem Memory.read_place_self (m : Memory) (a : Nat) (v : Byte) (h : ∀ c ∈ m, c.1 ≠ a) : (m.place a v).read a = v := by
  induction m with
  | nil => simp [Memory.place, Memory.read]
  | cons c rest ih =>
    obtain ⟨x, w⟩ := c
    have hx : x ≠ a := h (x, w) (by simp)
    have hr := ih fun c hc => h c (by simp [hc])
    by_cases hlt : a < x
    · simp [Memory.place, hlt, Memory.read]
    · simp [Memory.place, hlt, Memory.read, hx, hr]

/-- A byte reads as it was last written. -/
@[simp] theorem Memory.read_write_self (m : Memory) (a : Nat) (v : Byte) : (m.write a v).read a = v := by
  unfold Memory.write
  split
  · next h => rw [Memory.read_unlist_self, h]
  · exact Memory.read_place_self _ a v fun c hc => by simpa [Memory.unlist] using (List.mem_filter.1 hc).2

/-- A write leaves every other byte alone (R65). -/
theorem Memory.read_write_other (m : Memory) {a b : Nat} (v : Byte) (h : b ≠ a) : (m.write a v).read b = m.read b := by
  unfold Memory.write
  split
  · exact Memory.read_unlist_other m h
  · rw [Memory.read_place_other _ v h, Memory.read_unlist_other m h]

/-! ### The canonical form -/

theorem Memory.wfFrom_mono {low low' : Nat} (m : Memory) (h : low' ≤ low) (hm : Memory.wfFrom low m = true) :
    Memory.wfFrom low' m = true := by
  cases m with
  | nil => rfl
  | cons c rest =>
    obtain ⟨x, v⟩ := c
    simp only [Memory.wfFrom, Bool.and_eq_true, decide_eq_true_eq] at hm ⊢
    exact ⟨⟨⟨by omega, hm.1.1.2⟩, hm.1.2⟩, hm.2⟩

theorem Memory.wfFrom_unlist (m : Memory) (low a : Nat) (hm : Memory.wfFrom low m = true) :
    Memory.wfFrom low (m.unlist a) = true := by
  induction m generalizing low with
  | nil => rfl
  | cons c rest ih =>
    obtain ⟨x, v⟩ := c
    simp only [Memory.wfFrom, Bool.and_eq_true, decide_eq_true_eq] at hm
    by_cases hx : x = a
    · have := ih (x + 1) hm.2
      rw [show Memory.unlist ((x, v) :: rest) a = Memory.unlist rest a by simp [Memory.unlist, hx]]
      exact Memory.wfFrom_mono _ (by omega) this
    · rw [show Memory.unlist ((x, v) :: rest) a = (x, v) :: Memory.unlist rest a by simp [Memory.unlist, hx]]
      simp only [Memory.wfFrom, Bool.and_eq_true, decide_eq_true_eq]
      exact ⟨hm.1, ih (x + 1) hm.2⟩

theorem Memory.wfFrom_place (m : Memory) (low a : Nat) (v : Byte) (hm : Memory.wfFrom low m = true)
    (hlow : low ≤ a) (ha : a < Config.spaceSize) (hv : v ≠ Config.unlistedByte) (hne : ∀ c ∈ m, c.1 ≠ a) :
    Memory.wfFrom low (m.place a v) = true := by
  induction m generalizing low with
  | nil => simp [Memory.place, Memory.wfFrom, hlow, ha, hv]
  | cons c rest ih =>
    obtain ⟨x, w⟩ := c
    have hx : x ≠ a := hne (x, w) (by simp)
    simp only [Memory.wfFrom, Bool.and_eq_true, decide_eq_true_eq] at hm
    by_cases hlt : a < x
    · simp only [Memory.place, hlt, if_true, Memory.wfFrom, Bool.and_eq_true, decide_eq_true_eq]
      exact ⟨⟨⟨hlow, ha⟩, by simpa using hv⟩, ⟨⟨⟨by omega, hm.1.1.2⟩, hm.1.2⟩, hm.2⟩⟩
    · simp only [Memory.place, hlt, if_false, Memory.wfFrom, Bool.and_eq_true, decide_eq_true_eq]
      exact ⟨hm.1, ih (x + 1) hm.2 (by omega) fun c hc => hne c (by simp [hc])⟩

/-- A write inside pixel memory keeps the canonical form. -/
theorem Memory.wf_write (m : Memory) (a : Nat) (v : Byte) (ha : a < Config.spaceSize) (hm : m.wf = true) :
    (m.write a v).wf = true := by
  unfold Memory.write Memory.wf
  split
  · exact Memory.wfFrom_unlist m 0 a hm
  · next hv =>
    exact Memory.wfFrom_place _ 0 a v (Memory.wfFrom_unlist m 0 a hm) (Nat.zero_le a) ha hv
      fun c hc => by simpa [Memory.unlist] using (List.mem_filter.1 hc).2

/-- A word write inside pixel memory keeps the canonical form. -/
theorem Memory.wf_writeWord (order : ByteOrder) (m : Memory) (a : Nat) (v : Word) (ha : a + 3 < Config.spaceSize)
    (hm : m.wf = true) : (m.writeWord order a v).wf = true := by
  unfold Memory.writeWord
  exact Memory.wf_write _ _ _ (by omega) (Memory.wf_write _ _ _ (by omega)
    (Memory.wf_write _ _ _ (by omega) (Memory.wf_write _ _ _ (by omega) hm)))

/-! ### Words -/

/-- A word write leaves every byte outside its four alone (R67). -/
theorem Memory.read_writeWord_other (order : ByteOrder) (m : Memory) (a b : Nat) (v : Word) (h : b < a ∨ a + 4 ≤ b) :
    (m.writeWord order a v).read b = m.read b := by
  unfold Memory.writeWord
  rw [Memory.read_write_other _ _ (by omega), Memory.read_write_other _ _ (by omega),
    Memory.read_write_other _ _ (by omega), Memory.read_write_other _ _ (by omega)]

/-- Byte k of a word write holds byte k of the pixel (R64). -/
theorem Memory.read_writeWord_byte (order : ByteOrder) (m : Memory) (a k : Nat) (v : Word) (hk : k < 4) :
    (m.writeWord order a v).read (a + k) = pixelByte order v k := by
  unfold Memory.writeWord
  match k, hk with
  | 0, _ =>
    rw [Memory.read_write_other _ _ (by omega), Memory.read_write_other _ _ (by omega),
      Memory.read_write_other _ _ (by omega)]
    exact Memory.read_write_self _ _ _
  | 1, _ =>
    rw [Memory.read_write_other _ _ (by omega), Memory.read_write_other _ _ (by omega)]
    exact Memory.read_write_self _ _ _
  | 2, _ =>
    rw [Memory.read_write_other _ _ (by omega)]
    exact Memory.read_write_self _ _ _
  | 3, _ => exact Memory.read_write_self _ _ _

theorem pixelByte_joined (v : Word) :
    pixelByte .le v 3 ++ (pixelByte .le v 2 ++ (pixelByte .le v 1 ++ pixelByte .le v 0)) = v := by
  apply BitVec.eq_of_getLsbD_eq
  intro i hi
  simp only [pixelByte, BitVec.getLsbD_append, BitVec.getLsbD_extractLsb']
  interval_cases i <;> simp

/-- A word reads as it was last written (R66, R67). -/
@[simp] theorem Memory.readWord_writeWord_self (order : ByteOrder) (m : Memory) (a : Nat) (v : Word) :
    (m.writeWord order a v).readWord order a = v := by
  have h0 := Memory.read_writeWord_byte order m a 0 v (by omega)
  have h1 := Memory.read_writeWord_byte order m a 1 v (by omega)
  have h2 := Memory.read_writeWord_byte order m a 2 v (by omega)
  have h3 := Memory.read_writeWord_byte order m a 3 v (by omega)
  rw [Nat.add_zero] at h0
  cases order <;> simp only [Memory.readWord, h0, h1, h2, h3] <;> exact pixelByte_joined v

/-- Words whose four bytes read the same read the same. -/
theorem Memory.readWord_congr (order : ByteOrder) (m m' : Memory) (a : Nat)
    (h : ∀ k, k < 4 → m.read (a + k) = m'.read (a + k)) : m.readWord order a = m'.readWord order a := by
  have h0 := h 0 (by omega)
  rw [Nat.add_zero] at h0
  cases order <;> simp only [Memory.readWord, h0, h 1 (by omega), h 2 (by omega), h 3 (by omega)]

/-- A word write leaves every word that it does not meet alone. -/
theorem Memory.readWord_writeWord_other (order : ByteOrder) (m : Memory) (a b : Nat) (v : Word)
    (h : b + 4 ≤ a ∨ a + 4 ≤ b) : (m.writeWord order a v).readWord order b = m.readWord order b :=
  Memory.readWord_congr order _ _ b fun k hk => Memory.read_writeWord_other order m a (b + k) v (by omega)

end Sys2Proof.Machine
end

