-- ==== Sys2Proof/Laws/Ops.lean ====
section
/-! SUPPORT. For each shared operation, one lemma that says everything it can do: the admitted accesses, the pixel loop, the
prologue, a region command, the register window, the draws of a reset. Proofs about a command cite these and unfold none of the operations. -/

namespace Sys2Proof.Machine

/-! ### Admitted accesses -/

theorem memRead_ok {l : Launch} {m : Memory} {a : Nat} {v : Word} :
    memRead l m a = .ok v ↔ admits l .read a = true ∧ v = m.readWord l.byteOrder a := by
  unfold memRead
  cases admits l .read a <;> simp [eq_comm]

theorem memRead_error {l : Launch} {m : Memory} {a : Nat} {r : Fault} :
    memRead l m a = .error r ↔ admits l .read a = false ∧ r = .stuck := by
  unfold memRead
  cases admits l .read a <;> simp [eq_comm]

theorem memWrite_ok {l : Launch} {m m' : Memory} {a : Nat} {v : Word} :
    memWrite l m a v = .ok m' ↔ admits l .write a = true ∧ m' = m.writeWord l.byteOrder a v := by
  unfold memWrite
  cases admits l .write a <;> simp [eq_comm]

theorem memWrite_error {l : Launch} {m : Memory} {a : Nat} {v : Word} {r : Fault} :
    memWrite l m a v = .error r ↔ admits l .write a = false ∧ r = .stuck := by
  unfold memWrite
  cases admits l .write a <;> simp [eq_comm]

theorem memRewrite_ok {l : Launch} {m m' : Memory} {a : Nat} {f : Word → Word} :
    memRewrite l m a f = .ok m' ↔
      admits l .read a = true ∧ admits l .write a = true ∧
        m' = m.writeWord l.byteOrder a (f (m.readWord l.byteOrder a)) := by
  unfold memRewrite memRead memWrite
  cases admits l .read a <;> cases admits l .write a <;> simp [eq_comm]

theorem memRewrite_error {l : Launch} {m : Memory} {a : Nat} {f : Word → Word} {r : Fault} :
    memRewrite l m a f = .error r ↔ (admits l .read a = false ∨ admits l .write a = false) ∧ r = .stuck := by
  unfold memRewrite memRead memWrite
  cases admits l .read a <;> cases admits l .write a <;> simp [eq_comm]

theorem memCombine_ok {l : Launch} {m m' : Memory} {a b : Nat} {f : Word → Word → Word} :
    memCombine l m a b f = .ok m' ↔
      admits l .read a = true ∧ admits l .read b = true ∧ admits l .write a = true ∧
        m' = m.writeWord l.byteOrder a (f (m.readWord l.byteOrder a) (m.readWord l.byteOrder b)) := by
  unfold memCombine memRead memWrite
  cases admits l .read a <;> cases admits l .read b <;> cases admits l .write a <;> simp [eq_comm]

theorem memCombine_error {l : Launch} {m : Memory} {a b : Nat} {f : Word → Word → Word} {r : Fault} :
    memCombine l m a b f = .error r ↔
      (admits l .read a = false ∨ admits l .read b = false ∨ admits l .write a = false) ∧ r = .stuck := by
  unfold memCombine memRead memWrite
  cases admits l .read a <;> cases admits l .read b <;> cases admits l .write a <;> simp [eq_comm]

/-! ### The pixel loop -/

/-- What holds before pixel i, and is kept from each pixel to the next, holds after the loop. -/
theorem forPixels_keeps {f : Nat → Memory → Except Fault Memory} (P : Nat → Memory → Prop) {n i : Nat} {m m' : Memory}
    (h : forPixels f n i m = .ok m')
    (keep : ∀ j a b, i ≤ j → j < i + n → P j a → f j a = .ok b → P (j + 1) b) (start : P i m) : P (i + n) m' := by
  induction n generalizing i m with
  | zero =>
    simp only [forPixels, Except.ok.injEq] at h
    exact h ▸ start
  | succ n ih =>
    simp only [forPixels] at h
    split at h
    · cases h
    · next b hb =>
      have := ih h (fun j a c h1 h2 => keep j a c (by omega) (by omega)) (keep i m b (by omega) (by omega) start hb)
      rwa [show i + (n + 1) = i + 1 + n by omega]

/-- Where every pixel completes, the loop completes, and what each pixel keeps holds after it. -/
theorem forPixels_completes {f : Nat → Memory → Except Fault Memory} (P : Nat → Memory → Prop) {n i : Nat} {m : Memory}
    (each : ∀ j a, i ≤ j → j < i + n → P j a → ∃ b, f j a = .ok b ∧ P (j + 1) b) (start : P i m) :
    ∃ m', forPixels f n i m = .ok m' ∧ P (i + n) m' := by
  induction n generalizing i m with
  | zero => exact ⟨m, rfl, start⟩
  | succ n ih =>
    obtain ⟨b, hb, hP⟩ := each i m (by omega) (by omega) start
    obtain ⟨m', hm', hP'⟩ := ih (fun j a h1 h2 => each j a (by omega) (by omega)) hP
    refine ⟨m', ?_, ?_⟩
    · simp only [forPixels, hb, hm']
    · rwa [show i + (n + 1) = i + 1 + n by omega]

/-- A loop that stops stopped at one of its pixels. -/
theorem forPixels_error {f : Nat → Memory → Except Fault Memory} {n i : Nat} {m : Memory} {r : Fault}
    (h : forPixels f n i m = .error r) : ∃ j a, i ≤ j ∧ j < i + n ∧ f j a = .error r := by
  induction n generalizing i m with
  | zero => simp [forPixels] at h
  | succ n ih =>
    simp only [forPixels] at h
    split at h
    · next e he =>
      cases h
      exact ⟨i, m, by omega, by omega, he⟩
    · obtain ⟨j, a, h1, h2, h3⟩ := ih h
      exact ⟨j, a, by omega, by omega, h3⟩

/-- A loop one of whose pixels stops whatever memory holds does not complete. -/
theorem forPixels_not_ok {f : Nat → Memory → Except Fault Memory} {n i j : Nat} (hi : i ≤ j) (hj : j < i + n)
    (stop : ∀ a b, f j a ≠ .ok b) (m m' : Memory) : forPixels f n i m ≠ .ok m' := by
  induction n generalizing i m with
  | zero => omega
  | succ n ih =>
    simp only [forPixels]
    split
    · simp
    · next b hb =>
      by_cases h : i = j
      · exact absurd hb (h ▸ stop m b)
      · exact ih (by omega) (by omega) b

/-- A loop whose pixel j completes wherever the pixels from j on are still untouched, leaves g j at pixel j and changes no
other byte: it completes, every pixel of the region holds its g, and every byte outside the region is unchanged. -/
theorem eachPixel_pointwise {f : Nat → Memory → Except Fault Memory} (order : ByteOrder) (base first last : Nat)
    (g : Nat → Word) (m : Memory) (ordered : first ≤ last)
    (each : ∀ j a, first ≤ j → j ≤ last →
      (∀ x, x < base + 4 * first ∨ base + 4 * j ≤ x → Memory.read a x = m.read x) →
      ∃ b, f j a = .ok b ∧ b.readWord order (base + 4 * j) = g j ∧
        ∀ x, x < base + 4 * j ∨ base + 4 * j + 4 ≤ x → Memory.read b x = Memory.read a x) :
    ∃ m', eachPixel f first last m = .ok m' ∧
      (∀ i, first ≤ i → i ≤ last → m'.readWord order (base + 4 * i) = g i) ∧
      (∀ x, x < base + 4 * first ∨ base + 4 * last + 4 ≤ x → Memory.read m' x = m.read x) := by
  let P : Nat → Memory → Prop := fun j a =>
    (∀ i, first ≤ i → i < j → a.readWord order (base + 4 * i) = g i) ∧
      (∀ x, x < base + 4 * first ∨ base + 4 * j ≤ x → Memory.read a x = m.read x)
  obtain ⟨m', hm', hP⟩ := forPixels_completes (f := f) P (n := last + 1 - first) (i := first) (m := m) (by
    intro j a h1 h2 ⟨hdone, hrest⟩
    obtain ⟨b, hb, hg, hx⟩ := each j a h1 (by omega) hrest
    refine ⟨b, hb, ?_, fun x hx' => ?_⟩
    · intro i hi1 hi2
      by_cases hij : i = j
      · exact hij ▸ hg
      · rw [← hdone i hi1 (by omega)]
        exact Memory.readWord_congr order _ _ _ fun k hk => hx _ (by omega)
    · rw [hx x (by omega)]
      exact hrest x (by omega))
    ⟨fun i h1 h2 => by omega, fun x _ => rfl⟩
  rw [show first + (last + 1 - first) = last + 1 by omega] at hP
  exact ⟨m', hm', fun i h1 h2 => hP.1 i h1 (by omega), fun x hx => hP.2 x (by omega)⟩

/-! ### The prologue and region commands -/

/-- A descriptor is valid exactly as R62 says. -/
theorem Descriptor.valid_iff (d : Descriptor) :
    d.valid = true ↔ d.base ≠ 0#32 ∧ d.base.toNat % 4 = 0 ∧ d.base.toNat + d.len.toNat ≤ 2 ^ 32 := by
  unfold Descriptor.valid
  rw [Bool.and_eq_true, Bool.and_eq_true, decide_eq_true_eq, bne_iff_ne, beq_iff_eq, and_assoc]
  rfl

/-- A pixel below the count of a valid descriptor lies inside pixel memory (R63). -/
theorem Descriptor.pixelAddr_lt {d : Descriptor} {i : Nat} (valid : d.valid = true) (below : i < d.count) :
    d.pixelAddr i + 3 < Config.spaceSize := by
  have h := (d.valid_iff.1 valid).2.2
  unfold Descriptor.count at below
  unfold Descriptor.pixelAddr Config.spaceSize
  omega

/-- The overlap test of R79 in numbers: the bases differ and each range starts before the other ends. -/
theorem partialOverlap_iff (o : OperandRegs) (first last : Nat) :
    partialOverlap o first last = true ↔
      o.srcBase ≠ o.dstBase ∧ o.srcBase.toNat + 4 * first < o.dstBase.toNat + 4 * last + 4 ∧
        o.dstBase.toNat + 4 * first < o.srcBase.toNat + 4 * last + 4 := by
  unfold partialOverlap
  rw [Bool.and_eq_true, Bool.and_eq_true, decide_eq_true_eq, decide_eq_true_eq, bne_iff_ne]
  rfl

/-- The argument checks pass exactly for valid descriptors (R232). -/
theorem argumentChecks_none {readsSrc : Bool} {o : OperandRegs} :
    argumentChecks readsSrc o = none ↔ o.dst.valid = true ∧ (readsSrc = true → o.src.valid = true) := by
  unfold argumentChecks
  cases o.dst.valid <;> cases o.src.valid <;> cases readsSrc <;> simp

/-- What a raised code says (R232): the destination fails, or the destination passes and a source that is read fails. -/
theorem argumentChecks_some {readsSrc : Bool} {o : OperandRegs} {e : ErrCode} :
    argumentChecks readsSrc o = some e ↔
      (o.dst.valid = false ∧ e = .argDst) ∨
        (o.dst.valid = true ∧ readsSrc = true ∧ o.src.valid = false ∧ e = .argSrc) := by
  unfold argumentChecks
  cases o.dst.valid <;> cases o.src.valid <;> cases readsSrc <;> simp [eq_comm]

/-- Everything the prologue can answer (R170). -/
theorem prologue_cases (readsSrc sBit eBit : Bool) (o : OperandRegs) :
    (∃ e, argumentChecks readsSrc o = some e ∧ prologue readsSrc sBit eBit o = .raise e) ∨
    (argumentChecks readsSrc o = none ∧
      resolve (effectiveWidth readsSrc o) (rawStart sBit o) (rawEnd eBit o) = none ∧
      prologue readsSrc sBit eBit o = .empty) ∨
    (∃ first last, argumentChecks readsSrc o = none ∧
      resolve (effectiveWidth readsSrc o) (rawStart sBit o) (rawEnd eBit o) = some (first, last) ∧
      (readsSrc = true ∧ partialOverlap o first last = true) ∧ prologue readsSrc sBit eBit o = .overlap) ∨
    (∃ first last, argumentChecks readsSrc o = none ∧
      resolve (effectiveWidth readsSrc o) (rawStart sBit o) (rawEnd eBit o) = some (first, last) ∧
      ¬(readsSrc = true ∧ partialOverlap o first last = true) ∧
      prologue readsSrc sBit eBit o = .region first last) := by
  cases hc : argumentChecks readsSrc o with
  | some e => exact .inl ⟨e, rfl, by simp only [prologue, hc]⟩
  | none =>
    cases hr : resolve (effectiveWidth readsSrc o) (rawStart sBit o) (rawEnd eBit o) with
    | none => exact .inr (.inl ⟨rfl, rfl, by simp only [prologue, hc, hr]⟩)
    | some p =>
      obtain ⟨first, last⟩ := p
      by_cases ho : readsSrc = true ∧ partialOverlap o first last = true
      · exact .inr (.inr (.inl ⟨first, last, rfl, rfl, ho, by simp only [prologue, hc, hr, if_pos ho]⟩))
      · exact .inr (.inr (.inr ⟨first, last, rfl, rfl, ho, by simp only [prologue, hc, hr, if_neg ho]⟩))

/-- Everything a region command can answer: an error, a no-op, the fault of an overlap, the fault of its body, or the body's
memory with the command completed (R170, R234). -/
theorem runRegion_cases (readsSrc sBit eBit : Bool) (body : Nat → Nat → Memory → Except Fault Memory) (s : State) :
    (∃ e, prologue readsSrc sBit eBit s.latch.ops = .raise e ∧
      runRegion readsSrc sBit eBit body s = .next (s.complete e)) ∨
    (prologue readsSrc sBit eBit s.latch.ops = .empty ∧
      runRegion readsSrc sBit eBit body s = .next (s.complete .ok)) ∨
    (prologue readsSrc sBit eBit s.latch.ops = .overlap ∧
      runRegion readsSrc sBit eBit body s = .fault (.undefined .partialOverlap)) ∨
    (∃ first last r, prologue readsSrc sBit eBit s.latch.ops = .region first last ∧
      body first last s.mem = .error r ∧ runRegion readsSrc sBit eBit body s = .fault r) ∨
    (∃ first last m, prologue readsSrc sBit eBit s.latch.ops = .region first last ∧
      body first last s.mem = .ok m ∧ runRegion readsSrc sBit eBit body s = .next ((s.withMem m).complete .ok)) := by
  cases hp : prologue readsSrc sBit eBit s.latch.ops with
  | raise e => exact .inl ⟨e, rfl, by simp only [runRegion, hp, raiseError]⟩
  | empty => exact .inr (.inl ⟨rfl, by simp only [runRegion, hp]⟩)
  | overlap => exact .inr (.inr (.inl ⟨rfl, by simp only [runRegion, hp]⟩))
  | region first last =>
    cases hb : body first last s.mem with
    | error r => exact .inr (.inr (.inr (.inl ⟨first, last, r, rfl, hb, by simp only [runRegion, hp, hb]⟩)))
    | ok m => exact .inr (.inr (.inr (.inr ⟨first, last, m, rfl, hb, by simp only [runRegion, hp, hb]⟩)))

/-- A region command whose region is resolved and whose body completes (R170). -/
theorem runRegion_of_region {readsSrc sBit eBit : Bool} {body : Nat → Nat → Memory → Except Fault Memory} {s : State}
    {first last : Nat} {m : Memory} (checks : argumentChecks readsSrc s.latch.ops = none)
    (region : resolve (effectiveWidth readsSrc s.latch.ops) (rawStart sBit s.latch.ops) (rawEnd eBit s.latch.ops) =
      some (first, last))
    (apart : ¬(readsSrc = true ∧ partialOverlap s.latch.ops first last = true))
    (run : body first last s.mem = .ok m) :
    runRegion readsSrc sBit eBit body s = .next ((s.withMem m).complete .ok) := by
  simp only [runRegion, prologue, checks, region, if_neg apart, run]

/-! ### The register window -/

/-- Every register is found at its offset (R20). -/
@[simp] theorem Reg.at?_offset (r : Reg) : Reg.at? r.offset = some r := by cases r <;> decide

/-- A 32-bit access at a register's address reaches it (R20, R21). -/
@[simp] theorem windowOffset_reg (l : Launch) (r : Reg) : windowOffset l (l.regBase + r.offset) 32 = .ok r.offset := by
  have h : r.offset < 64 ∧ r.offset % 4 = 0 := by cases r <;> decide
  unfold windowOffset Config.windowBytes
  rw [if_neg (by omega), if_neg (by omega)]
  simp

/-- Everything a write of a slot can do (R24, R27, R29, R38). -/
theorem writeSlot_cases (r : Reg) (v : Word) (s : State) :
    (r = .CMD ∧ s.status.busy = true ∧ writeSlot r v s = { s with status := s.status.dropped }) ∨
    (r = .CMD ∧ s.status.busy = false ∧ writeSlot r v s = s.accept v) ∨
    (r = .STATUS ∧ writeSlot r v s = { s with status := s.status.written v }) ∨
    (r = .RESULT ∧ writeSlot r v s = s) ∨
    (∃ o, writeSlot r v s = s.withRegs o) := by
  cases r with
  | CMD =>
    cases hb : s.status.busy with
    | true => exact .inl ⟨rfl, rfl, by simp [writeSlot, hb]⟩
    | false => exact .inr (.inl ⟨rfl, rfl, by simp [writeSlot, hb]⟩)
  | STATUS => exact .inr (.inr (.inl ⟨rfl, rfl⟩))
  | RESULT => exact .inr (.inr (.inr (.inl ⟨rfl, rfl⟩)))
  | COLOR1 => exact .inr (.inr (.inr (.inr ⟨_, rfl⟩)))
  | COLOR2 => exact .inr (.inr (.inr (.inr ⟨_, rfl⟩)))
  | START => exact .inr (.inr (.inr (.inr ⟨_, rfl⟩)))
  | END => exact .inr (.inr (.inr (.inr ⟨_, rfl⟩)))
  | DST_BASE => exact .inr (.inr (.inr (.inr ⟨_, rfl⟩)))
  | DST_LEN => exact .inr (.inr (.inr (.inr ⟨_, rfl⟩)))
  | SRC_BASE => exact .inr (.inr (.inr (.inr ⟨_, rfl⟩)))
  | SRC_LEN => exact .inr (.inr (.inr (.inr ⟨_, rfl⟩)))

/-- Everything a window write can do: nothing at a reserved offset (R22), else what the slot's write does. -/
theorem writeWindow_cases (off : Nat) (v : Word) (s : State) :
    (Reg.at? off = none ∧ writeWindow off v s = s) ∨
    (∃ r, Reg.at? off = some r ∧ writeWindow off v s = writeSlot r v s) := by
  cases h : Reg.at? off with
  | none => exact .inl ⟨rfl, by simp only [writeWindow, h]⟩
  | some r => exact .inr ⟨r, rfl, by simp only [writeWindow, h]⟩

/-! ### The draws of a reset -/

/-- Everything draws can do to memory: whatever every word write at a pixel of the valid buffer keeps is kept. -/
theorem drawPixels_keeps {order : ByteOrder} {d : Descriptor} {value : PixelDraw → Option Word} (P : Memory → Prop)
    {draws : List PixelDraw} {m : Memory}
    (keep : ∀ p ∈ draws, ∀ v a, value p = some v → d.valid = true → p.index < d.count → P a →
      P (a.writeWord order (d.pixelAddr p.index) v))
    (start : P m) : P (drawPixels order d value draws m) := by
  induction draws generalizing m with
  | nil => exact start
  | cons p rest ih =>
    refine ih (fun q hq => keep q (List.mem_cons_of_mem p hq)) ?_
    split
    · next inside =>
      split
      · next v hv => exact keep p List.mem_cons_self v m hv inside.1 inside.2 start
      · exact start
    · exact start

theorem drawPixels_wf {order : ByteOrder} {d : Descriptor} {value : PixelDraw → Option Word} {draws : List PixelDraw}
    {m : Memory} (canonical : m.wf = true) : (drawPixels order d value draws m).wf = true :=
  drawPixels_keeps (fun a => a.wf = true)
    (fun _ _ v a _ valid below h => Memory.wf_writeWord order a _ v (Descriptor.pixelAddr_lt valid below) h) canonical

/-- A pixel that no draw names keeps its word. -/
theorem drawPixels_undrawn (order : ByteOrder) (d : Descriptor) (value : PixelDraw → Option Word) {draws : List PixelDraw}
    (m : Memory) {k : Nat} (undrawn : ∀ p ∈ draws, p.index ≠ k) :
    (drawPixels order d value draws m).readWord order (d.pixelAddr k) = m.readWord order (d.pixelAddr k) :=
  drawPixels_keeps (fun a => a.readWord order (d.pixelAddr k) = m.readWord order (d.pixelAddr k))
    (fun p hp v a _ _ _ h => by
      have apart := undrawn p hp
      rw [Memory.readWord_writeWord_other order a _ _ v (by unfold Descriptor.pixelAddr; omega), h])
    rfl

/-- A drawn pixel of a valid buffer holds the word that every draw of it gives. -/
theorem drawPixels_drawn (order : ByteOrder) {d : Descriptor} {value : PixelDraw → Option Word} {draws : List PixelDraw}
    (m : Memory) {k : Nat} {x : Word} (valid : d.valid = true) (below : k < d.count)
    (drawn : (∃ p ∈ draws, p.index = k) ∨ m.readWord order (d.pixelAddr k) = x)
    (gives : ∀ p ∈ draws, p.index = k → value p = some x) :
    (drawPixels order d value draws m).readWord order (d.pixelAddr k) = x := by
  induction draws generalizing m with
  | nil => simpa [drawPixels] using drawn
  | cons p rest ih =>
    simp only [drawPixels]
    refine ih _ ?_ (fun q hq => gives q (List.mem_cons_of_mem _ hq))
    by_cases hp : p.index = k
    · right
      rw [if_pos ⟨valid, hp ▸ below⟩, gives p List.mem_cons_self hp]
      simp only [hp, Memory.readWord_writeWord_self]
    · rcases drawn with ⟨q, hq, e⟩ | old
      · rcases List.mem_cons.1 hq with rfl | hq
        · exact absurd e hp
        · exact .inl ⟨q, hq, e⟩
      · right
        split
        · split
          · rw [Memory.readWord_writeWord_other order m _ _ _ (by unfold Descriptor.pixelAddr; omega), old]
          · exact old
        · exact old

end Sys2Proof.Machine
end

