-- ==== Sys2Proof/Laws/PerInstr.lean ====
section
/-! SUPPORT. A fact per instruction as syntax: its word carries the OPC and M of its row of R96, and no reserved bit. -/

namespace Sys2Proof.Laws

open Sys2Proof

/-- The OPC and M of R96 for each form, as the low byte of its word with S and E taken out. -/
def opcodeByte : Instr → Nat
  | .blend => 0x01
  | .blendl _ => 0x02
  | .blendbuf _ _ => 0x03
  | .grad _ _ => 0x04
  | .blendc _ _ => 0x05
  | .opac _ _ _ => 0x06
  | .opacm _ _ => 0x46
  | .bright _ _ _ => 0x07
  | .brightm _ _ => 0x47
  | .fill _ _ => 0x08

/-- The encoded word carries its form's OPC and M, and bit 7 and bits 31:17 are 0 (R94, R96). -/
def EncodedOpcode.Statement (i : Instr) : Prop :=
  encode i &&& 0xFFFE00CF#32 = BitVec.ofNat 32 (opcodeByte i)

theorem EncodedOpcode.blend : EncodedOpcode.Statement .blend := by
  unfold EncodedOpcode.Statement
  decide

theorem EncodedOpcode.blendl (alpha : BitVec 8) : EncodedOpcode.Statement (.blendl alpha) := by
  revert alpha
  unfold EncodedOpcode.Statement
  decide

theorem EncodedOpcode.blendbuf (sBit eBit : Bool) : EncodedOpcode.Statement (.blendbuf sBit eBit) := by
  unfold EncodedOpcode.Statement
  cases sBit <;> cases eBit <;> decide

theorem EncodedOpcode.grad (sBit eBit : Bool) : EncodedOpcode.Statement (.grad sBit eBit) := by
  unfold EncodedOpcode.Statement
  cases sBit <;> cases eBit <;> decide

theorem EncodedOpcode.blendc (sBit eBit : Bool) : EncodedOpcode.Statement (.blendc sBit eBit) := by
  unfold EncodedOpcode.Statement
  cases sBit <;> cases eBit <;> decide

theorem EncodedOpcode.opac (sBit eBit : Bool) (scale : BitVec 9) :
    EncodedOpcode.Statement (.opac sBit eBit scale) := by
  revert scale
  unfold EncodedOpcode.Statement
  cases sBit <;> cases eBit <;> decide

theorem EncodedOpcode.opacm (sBit eBit : Bool) : EncodedOpcode.Statement (.opacm sBit eBit) := by
  unfold EncodedOpcode.Statement
  cases sBit <;> cases eBit <;> decide

theorem EncodedOpcode.bright (sBit eBit : Bool) (scale : BitVec 9) :
    EncodedOpcode.Statement (.bright sBit eBit scale) := by
  revert scale
  unfold EncodedOpcode.Statement
  cases sBit <;> cases eBit <;> decide

theorem EncodedOpcode.brightm (sBit eBit : Bool) : EncodedOpcode.Statement (.brightm sBit eBit) := by
  unfold EncodedOpcode.Statement
  cases sBit <;> cases eBit <;> decide

theorem EncodedOpcode.fill (sBit eBit : Bool) : EncodedOpcode.Statement (.fill sBit eBit) := by
  unfold EncodedOpcode.Statement
  cases sBit <;> cases eBit <;> decide

end Sys2Proof.Laws
end

