-- ==== Sys2Proof/Tests/Slice0.lean ====
section
/-! SUPPORT. The model's own tests: ill-formed terms are refused, words written out from the patterns of R97 decode, one step
of every command against spec/95_test_vectors.md, and for every statement with hypotheses a state that meets them. -/

namespace Sys2Proof.Tests

open Sys2Proof Sys2Proof.Machine

/-! ### Small states -/

/-- Pixels placed from an address on (LE). -/
def pixelsAt (base : Nat) : List Word → Memory → Memory
  | [], m => m
  | p :: rest, m => pixelsAt (base + 4) rest (m.writeWord .le base p)

/-- Operands with an n-pixel destination at 0x1000 and a k-pixel source at 0x2000, as the region vectors have them. -/
def buffers (c1 c2 first last : Word) (n k : Nat) : OperandRegs :=
  { color1 := c1, color2 := c2, startPos := first, endPos := last, dstBase := 0x1000#32, dstLen := BitVec.ofNat 32 (4 * n),
    srcBase := if k = 0 then 0#32 else 0x2000#32, srcLen := BitVec.ofNat 32 (4 * k) }

/-- A block that has accepted a command with these operands over this memory. -/
def running (i : Instr) (o : OperandRegs) (m : Memory) : State :=
  { State.reset with
    cmd := encode i, latch := { cmd := encode i, ops := o }, regs := o, mem := m
    status := { busy := true, done := false, ign := false, err := .ok } }

/-- The first n destination pixels and STATUS after one step. -/
def after (s : State) (n : Nat) : Option (List Word × Word) :=
  (nextOf (step s)).map fun t => ((List.range n).map (t.pixel s.latch.ops.dst), t.status.word)

/-- RESULT and STATUS after one step. -/
def resultAfter (s : State) : Option (Word × Word) := (nextOf (step s)).map fun t => (t.result, t.status.word)

/-- An outcome that has a next state is `.next` of it. -/
theorem next_of_isSome {o : Host.Outcome State Fault Refusal} (h : (nextOf o).isSome = true) : ∃ t, o = .next t := by
  cases o with
  | next t => exact ⟨t, rfl⟩
  | fault r => cases h
  | refused r => cases h

/-! ### Ill-formed terms -/

theorem test_wf_suffix_on_blend :
    CmdSpelling.check ⟨.BLEND, true, false, none⟩ = .error .suffixNotAllowed := by decide

theorem test_wf_suffix_on_blendl :
    CmdSpelling.check ⟨.BLENDL, false, true, some 1⟩ = .error .suffixNotAllowed := by decide

theorem test_wf_imm_missing : CmdSpelling.check ⟨.OPAC, false, false, none⟩ = .error .immMissing := by decide

theorem test_wf_imm_above_255 : CmdSpelling.check ⟨.BLENDL, false, false, some 256⟩ = .error .immOutOfRange := by decide

theorem test_wf_imm_above_511 : CmdSpelling.check ⟨.BRIGHT, true, false, some 512⟩ = .error .immOutOfRange := by decide

theorem test_wf_imm_negative : CmdSpelling.wf ⟨.OPAC, false, false, some (-1)⟩ = false := by decide

theorem test_wf_imm_not_allowed : CmdSpelling.check ⟨.FILL, true, true, some 0⟩ = .error .immNotAllowed := by decide

theorem test_wf_accepted : CmdSpelling.wf ⟨.OPAC, true, true, some 511⟩ = true := by decide

theorem test_wf_region_base : Region.wf ⟨2, 4, true, true⟩ = false := by decide

theorem test_wf_region_size : Region.wf ⟨4, 6, true, true⟩ = false := by decide

theorem test_wf_region_top : Region.wf ⟨4, 2 ^ 32, true, true⟩ = false := by decide

theorem test_wf_window_base : Launch.wf { Launch.default with regBase := 32 } = false := by decide

theorem test_wf_bad_region : Launch.wf { Launch.default with regions := [⟨1, 4, true, true⟩] } = false := by decide

theorem test_wf_default : Launch.wf Launch.default = true := by decide

/-! ### Decoding: words written out from R97 and the table of section 2.12 -/

theorem test_decode_blend : decode 0b00000000000000000000000000000001#32 = .ok .blend := by decide

theorem test_decode_blendl : decode 0b00000000000000001000000000000010#32 = .ok (.blendl 128#8) := by decide

theorem test_decode_blendbuf : decode 0b00000000000000000000000000110011#32 = .ok (.blendbuf true true) := by decide

theorem test_decode_grad : decode 0b00000000000000000000000000100100#32 = .ok (.grad false true) := by decide

theorem test_decode_blendc : decode 0b00000000000000000000000000010101#32 = .ok (.blendc true false) := by decide

theorem test_decode_opac : decode 0b00000000000000010010110000010110#32 = .ok (.opac true false 300#9) := by decide

theorem test_decode_opacm : decode 0b00000000000000000000000001110110#32 = .ok (.opacm true true) := by decide

theorem test_decode_bright : decode 0b00000000000000011001000000000111#32 = .ok (.bright false false 400#9) := by decide

theorem test_decode_brightm : decode 0b00000000000000000000000001100111#32 = .ok (.brightm false true) := by decide

theorem test_decode_fill : decode 0b00000000000000000000000000111000#32 = .ok (.fill true true) := by decide

theorem test_decode_illegal_words :
    [0x00000000#32, 0x00000011#32, 0x00000101#32, 0x00010002#32, 0x00000022#32, 0x00000043#32, 0x00000083#32, 0x00000103#32,
      0x00020006#32, 0x00000146#32, 0x80000008#32, 0x00000009#32, 0x0000000F#32, 0x00000048#32, 0xFFFFFFFF#32].all
      (fun w => decode w == .error .illegal) = true := by decide

theorem test_table_word : decodeTableWord 32 0x00012C16 = some (.opac true false 300#9) := by decide

theorem test_fetch_word_runs :
    resultAfter (State.reset.withFetchWord 32 0x00000001) = some (0#32, 0x00000002#32) := by decide

/-! ### One step of each command (expected values: spec/95_test_vectors.md, the vector named) -/

/-- W9, X18. -/
theorem test_blend :
    resultAfter (running .blend (buffers 0xFF000000#32 0x80FFFFFF#32 0#32 0#32 0 0) []) =
      some (0xFF808080#32, 0x2#32) := by decide

/-- R151: the truncation of two terms. -/
theorem test_blend_loses_two_fractions :
    blendPair 0xFFFFFFFF#32 0x01000000#32 = 0xFFFEFEFE#32 := by decide

/-- Y11. -/
theorem test_blendl :
    resultAfter (running (.blendl 200#8) (buffers 0x12345678#32 0#32 0#32 0#32 0 0) []) =
      some (0x0E28435E#32, 0x2#32) := by decide

/-- R155: the cross-fade truncates toward color_b. -/
theorem test_blendl_truncates_toward_color_b :
    blendLinear 0#32 0xFFFFFFFF#32 128#8 = 0x7F7F7F7F#32 := by decide

/-- BB1. -/
theorem test_blendbuf :
    after (running (.blendbuf false false) (buffers 0#32 0#32 0#32 0#32 4 4)
      (pixelsAt 0x1000 [0xFF000000#32, 0xFF000000#32, 0#32, 0xFF112233#32]
        (pixelsAt 0x2000 [0x00FFFFFF#32, 0xFF00FF00#32, 0x80FFFFFF#32, 0x40FF0000#32] []))) 4 =
      some ([0xFF000000#32, 0xFF00FF00#32, 0x80808080#32, 0xFF4C1926#32], 0x2#32) := by decide

/-- BB3. -/
theorem test_blendbuf_region :
    after (running (.blendbuf true true) (buffers 0#32 0#32 1#32 2#32 4 4)
      (pixelsAt 0x1000 [0x20406080#32, 0x20406080#32, 0x20406080#32, 0x20406080#32]
        (pixelsAt 0x2000 [0x80FFFFFF#32, 0x80FFFFFF#32, 0x80FFFFFF#32, 0x80FFFFFF#32] []))) 4 =
      some ([0x20406080#32, 0x8F9FAFBF#32, 0x8F9FAFBF#32, 0x20406080#32], 0x2#32) := by decide

/-- GR7. -/
theorem test_grad_negative_bounds :
    after (running (.grad true true) (buffers 0#32 0x0000FF00#32 (-4#32) (-2#32) 6 0)
      (pixelsAt 0x1000 (List.replicate 6 0x11111111#32) [])) 6 =
      some ([0x11111111#32, 0x11111111#32, 0#32, 0x00007F00#32, 0x0000FF00#32, 0x11111111#32], 0x2#32) := by decide

/-- GR6: one pixel takes COLOR1. -/
theorem test_grad_one_pixel :
    after (running (.grad false false) (buffers 0x01020304#32 0x05060708#32 0#32 0#32 1 0)
      (pixelsAt 0x1000 [0x11111111#32] [])) 1 = some ([0x01020304#32], 0x2#32) := by decide

/-- BC1. -/
theorem test_blendc :
    after (running (.blendc false false) (buffers 0x40FF8000#32 0#32 0#32 0#32 4 0)
      (pixelsAt 0x1000 [0xFF000000#32, 0#32, 0xFFFFFFFF#32, 0x80808080#32] [])) 4 =
      some ([0xFF402000#32, 0x40402000#32, 0xFFFFDFBF#32, 0x9F9F7F5F#32], 0x2#32) := by decide +kernel

/-- X8: the argument check comes before the transparent color. -/
theorem test_blendc_transparent_null_target :
    after (running (.blendc false false) { OperandRegs.reset with color1 := 0x00FFFFFF#32 } []) 0 =
      some ([], 0x22#32) := by decide

/-- S5 and S6: scales above 255. -/
theorem test_opac_up :
    after (running (.opac false false 300#9) (buffers 0#32 0#32 0#32 0#32 4 0)
      (pixelsAt 0x1000 [0xFF804020#32, 0x80FFFFFF#32, 0x10101010#32, 0x00FF00FF#32] [])) 4 =
      some ([0xFF804020#32, 0x96FFFFFF#32, 0x12101010#32, 0x00FF00FF#32], 0x2#32) := by decide +kernel

/-- S1. -/
theorem test_opac_down :
    after (running (.opac false false 128#9) (buffers 0#32 0#32 0#32 0#32 4 0)
      (pixelsAt 0x1000 [0xFF804020#32, 0x80FFFFFF#32, 0x10101010#32, 0x00FF00FF#32] [])) 4 =
      some ([0x80804020#32, 0x40FFFFFF#32, 0x08101010#32, 0x00FF00FF#32], 0x2#32) := by decide +kernel

/-- S15: a region takes the mask pixels of the same indices. -/
theorem test_opacm_region :
    after (running (.opacm true false) (buffers 0#32 0#32 1#32 0#32 4 4)
      (pixelsAt 0x1000 [0xFF804020#32, 0x80FFFFFF#32, 0x10101010#32, 0x00FF00FF#32]
        (pixelsAt 0x2000 [0x80000000#32, 0xFF123456#32, 0x00FFFFFF#32, 0x40000000#32] []))) 4 =
      some ([0xFF804020#32, 0x80FFFFFF#32, 0x00101010#32, 0x00FF00FF#32], 0x2#32) := by decide +kernel

/-- S10: BRIGHT #400. -/
theorem test_bright_up :
    after (running (.bright false false 400#9) (buffers 0#32 0#32 0#32 0#32 4 0)
      (pixelsAt 0x1000 [0xFF804020#32, 0x80FFFFFF#32, 0x10101010#32, 0x00FF00FF#32] [])) 4 =
      some ([0xFFC86432#32, 0x80FFFFFF#32, 0x10191919#32, 0x00FF00FF#32], 0x2#32) := by decide

/-- S12. -/
theorem test_bright_down_region :
    after (running (.bright true false 64#9) (buffers 0#32 0#32 (-2#32) 0#32 4 0)
      (pixelsAt 0x1000 [0xFF804020#32, 0x80FFFFFF#32, 0x10101010#32, 0x00FF00FF#32] [])) 4 =
      some ([0xFF804020#32, 0x80FFFFFF#32, 0x10040404#32, 0x00400040#32], 0x2#32) := by decide

/-- S16. -/
theorem test_brightm :
    after (running (.brightm false false) (buffers 0#32 0#32 0#32 0#32 4 4)
      (pixelsAt 0x1000 [0xFF804020#32, 0x80FFFFFF#32, 0x10101010#32, 0x00FF00FF#32]
        (pixelsAt 0x2000 [0x80000000#32, 0xFF123456#32, 0x00FFFFFF#32, 0x40000000#32] []))) 4 =
      some ([0xFF402010#32, 0x80FFFFFF#32, 0x10000000#32, 0x00400040#32], 0x2#32) := by decide +kernel

/-- X17. -/
theorem test_brightm_partial_overlap :
    nextOf (step (running (.brightm false false)
      { buffers 0#32 0#32 0#32 0#32 4 4 with srcBase := 0x1004#32 } [])) = none := by decide

/-- FL2. -/
theorem test_fill_region :
    after (running (.fill true true) (buffers 0x00123456#32 0#32 1#32 2#32 4 0)
      (pixelsAt 0x1000 [1#32, 2#32, 3#32, 4#32] [])) 4 =
      some ([1#32, 0x00123456#32, 0x00123456#32, 4#32], 0x2#32) := by decide

/-- FL6: LEN = 14 holds three pixels. -/
theorem test_fill_ragged_length :
    after (running (.fill false false) { buffers 0x55555555#32 0#32 0#32 0#32 4 0 with dstLen := 14#32 }
      (pixelsAt 0x1000 [1#32, 2#32, 3#32, 4#32] [])) 4 =
      some ([0x55555555#32, 0x55555555#32, 0x55555555#32, 4#32], 0x2#32) := by decide

/-- Y6: the second CMD write is dropped. -/
theorem test_second_issue_is_dropped :
    let s := writeSlot .CMD 0x00000009#32 (writeSlot .CMD 0x00000001#32 State.reset)
    (nextOf (step s)).map (fun t => (t.status.word, t.cmd)) = some (0x6#32, 0x1#32) := by decide

/-- Y10: a reset while FILL is BUSY, with pixel 1 of three drawn as written. -/
theorem test_reset_discards_fill :
    let s := running (.fill false false) (buffers 0x000000CC#32 0#32 0#32 0#32 3 0) (pixelsAt 0x1000 [1#32, 2#32, 3#32] [])
    (nextOf (hostTurn (.reset [⟨1, 0#32⟩] Latch.reset) s)).map
      (fun t => (t.status.word, (List.range 3).map (t.pixel s.latch.ops.dst))) =
      some (0#32, [1#32, 0xCC#32, 3#32]) := by decide

/-- R260 and R261: a reset discards a partial overlap too; the drawn pixel holds any value, the one outside the region none. -/
theorem test_reset_discards_partial_overlap :
    let s := running (.brightm false true) { buffers 0#32 0#32 0#32 1#32 3 3 with srcBase := 0x1004#32 }
      (pixelsAt 0x1000 [1#32, 2#32, 3#32] [])
    (nextOf (hostTurn (.reset [⟨1, 0xABCD#32⟩, ⟨2, 0xABCD#32⟩] Latch.reset) s)).map
      (fun t => (t.status.word, (List.range 3).map (t.pixel s.latch.ops.dst))) =
      some (0#32, [1#32, 0xABCD#32, 3#32]) := by decide

/-- R101: both pixel accesses take an address and an imm32, here the address by `.equ`; a program's encoding lists its
register accesses alone. -/
theorem test_pixel_statements :
    (match assemble Launch.default 1 [] [.equ "buf" (.hex 0x1000), .stm (.name "buf") (.dec (-1)), .ldm (.name "buf") (.hex 7)] with
      | .ok moves => moves == [.storePixel 0x1000#32 0xFFFFFFFF#32, .loadPixel 0x1000#32 7#32]
      | .error _ => false) = true ∧
    (match assemble Launch.default 1 [] [.ldm (.hex 0) (.name "unknown")] with
      | .ok _ => false
      | .error e => e == (1, .unknownName "unknown")) = true ∧
    (match programEncoding Launch.default [.wr .COLOR1 (.hex 5), .ldm (.hex 0) (.hex 0), .rd .RESULT] with
      | .ok l => l == [(0x0C, some 5#32), (0x08, none)]
      | .error _ => false) = true := by decide

/-! ### States that meet the hypotheses of the statements -/

/-- Two 4-pixel buffers of nonzero pixels; the source's first two alphas are 0 and 255. -/
def twoBuffers : Memory :=
  pixelsAt 0x1000 [0x01010101#32, 0x02020202#32, 0x03030303#32, 0x04040404#32]
    (pixelsAt 0x2000 [0x00FFFFFF#32, 0xFF00FF00#32, 0x80FFFFFF#32, 0x40FF0000#32] [])

/-- Operands over both buffers with COLOR1 half opaque; the region bounds are 0 and -1. -/
def bothOps : OperandRegs := buffers 0x80402010#32 0xFF00FF00#32 0#32 (-1#32) 4 4

/-- A launch whose memory ends after pixel 2 of the destination and after pixel 3 of the source. -/
def shortLaunch : Launch :=
  { Launch.default with regions := [⟨0x1000, 12, true, true⟩, ⟨0x2000, 16, true, true⟩] }

theorem test_witness_EncodeOfDecodeIsTheWord : decode 0x0001FF06#32 = .ok (.opac false false 511#9) := by decide

theorem test_witness_IllegalWords_accepted : State.reset.status.busy = false := by decide

theorem test_witness_IllegalWords_executed :
    let s := State.reset.accept 0x00000009#32
    s.status.busy = true ∧ decode s.latch.cmd = .error .illegal := by decide

theorem test_witness_AssembledWords :
    CmdSpelling.toInstr ⟨.FILL, true, false, some 0⟩ = .error .immNotAllowed ∧
      CmdSpelling.toInstr ⟨.OPAC, true, false, some 511⟩ = .ok (.opac true false 511#9) := by decide

theorem test_witness_CommandsStraightAfterReset :
    usesDst (.fill false false) = true ∧ decode 0x80000008#32 = .error .illegal := by decide

theorem test_witness_ResetSignal_idle : State.reset.status.busy = false := by decide

theorem test_witness_ResetSignal_busy :
    let s := running (.fill false false) bothOps twoBuffers
    s.status.busy = true ∧ (∃ u, executeLatched s = .next u) ∧ 3 < s.latch.ops.dst.count ∧
      s.latch.ops.dst.valid = true :=
  ⟨by decide, next_of_isSome (by decide), by decide, by decide⟩

theorem test_witness_ResetSignal_stuck :
    let s := { running (.fill false false) bothOps twoBuffers with launch := shortLaunch }
    s.status.busy = true ∧ executeLatched s = .fault .stuck := ⟨by decide, rfl⟩

theorem test_witness_ResetSignal_overlap :
    let s := running (.opacm false false) { bothOps with srcBase := 0x1004#32 } twoBuffers
    s.status.busy = true ∧ executeLatched s = .fault (.undefined .partialOverlap) ∧
      decode s.latch.cmd = .ok (.opacm false false) ∧ commandRegion (.opacm false false) s.latch.ops = some (0, 3) ∧
      admits s.launch .write (s.latch.ops.dst.pixelAddr 3) = true := ⟨by decide, rfl, by decide, by decide, by decide⟩

theorem test_witness_StepRunsTheDecodedCommand :
    let s := running (.fill true false) bothOps twoBuffers
    s.blockNext = true ∧ s.status.busy = true ∧ decode s.latch.cmd = .ok (.fill true false) := by decide

theorem test_witness_StepRunsTheDecodedCommand_script :
    let s := (running .blend bothOps []).withScript [.block, .host .wait]
    s.blockNext = true ∧ s.status.busy = true ∧ decode s.latch.cmd = .ok .blend := by decide

theorem test_witness_AnIdleBlockWaits : State.reset.blockNext = true ∧ State.reset.status.busy = false := by decide

theorem test_witness_StepKeepsTheInvariant :
    let s := running (.blendbuf false false) bothOps twoBuffers
    s.inv = true ∧ ∃ t, step s = .next t := ⟨by decide, next_of_isSome (by decide)⟩

theorem test_witness_StepKeepsTheLaunch :
    ∃ t, step (State.reset.withScript [.host (.writeReg 0x0C 32 1#32)]) = .next t :=
  next_of_isSome (by decide)

theorem test_witness_AcceptedCommandCannotBeChanged :
    let s := running (.fill false false) bothOps []
    (∀ draws junk, HostMove.writeReg 0x00 32 9#32 ≠ .reset draws junk) ∧ s.status.busy = true ∧
      ∃ t, hostTurn (.writeReg 0x00 32 9#32) s = .next t :=
  ⟨fun _ _ h => HostMove.noConfusion h, by decide, next_of_isSome (by decide)⟩

theorem test_witness_ExecutionReadsOnlyLatchAndMemory :
    let s := running (.fill false false) bothOps twoBuffers
    let r := s.withRegs OperandRegs.reset
    r.latch.ops = s.latch.ops ∧ r.mem = s.mem ∧ r.launch = s.launch ∧ r.result = s.result ∧
      r.status.ign = s.status.ign ∧ r.regs ≠ s.regs ∧ ∃ t, exec (.fill false false) s = .next t :=
  ⟨rfl, rfl, rfl, rfl, rfl, by decide, next_of_isSome (by decide)⟩

theorem test_witness_CommandsWriteOnlyTheirRegion :
    let s := running (.fill true true) { bothOps with startPos := 3#32, endPos := 3#32 } twoBuffers
    (∃ t, exec (.fill true true) s = .next t) ∧ commandRegion (.fill true true) s.latch.ops = some (3, 3) ∧
      s.latch.ops.dst.outside 3 3 0x100B ∧ s.latch.ops.dst.outside 3 3 0x1010 :=
  ⟨next_of_isSome (by decide), by decide, by decide, by decide⟩

theorem test_witness_CommandsWriteOnlyTheirRegion_error :
    (nextOf (exec (.fill false false) (running (.fill false false) OperandRegs.reset []))).map (·.status.err) =
      some .argDst := by decide

theorem test_witness_CommandsWriteOnlyTheirRegion_empty :
    let s := running (.fill true true) { bothOps with startPos := 3#32, endPos := 1#32 } twoBuffers
    (∃ t, exec (.fill true true) s = .next t) ∧ commandRegion (.fill true true) s.latch.ops = none ∧
      usesDst .blend = false ∧ ∃ t, exec .blend s = .next t :=
  ⟨next_of_isSome (by decide), by decide, by decide, next_of_isSome (by decide)⟩

theorem test_witness_OnlySinglePixelBlendsWriteResult :
    (nextOf (exec .blend (running .blend bothOps []))).map (fun t => t.result == 0#32) = some false ∧
      (let s := State.reset.accept 0x0000000F#32
       decode s.latch.cmd = .error .illegal ∧ ∃ t, executeLatched s = .next t) :=
  ⟨by decide, by decide, next_of_isSome (by decide)⟩

theorem test_witness_WaitEndsWhenTheCommandCompletes :
    let s := (running (.fill false false) bothOps twoBuffers).withScript [.host .wait, .host (.readReg 0x04 32)]
    s.script = .host .wait :: [.host (.readReg 0x04 32)] ∧ s.status.busy = true ∧ ∃ t, executeLatched s = .next t :=
  ⟨rfl, by decide, next_of_isSome (by decide)⟩

theorem test_witness_ResolvedRegionLiesInside : resolve 10 (-1) 9 = some (9, 9) ∧ resolve 1 0 (-1) = some (0, 0) := by decide

theorem test_witness_NormalizerCornerCases :
    (-10 : Int) ≤ -((10 : Nat) : Int) ∧ -((10 : Nat) : Int) ≤ -10 ∧ (-10 : Int) < 0 ∧ 9 ≤ 9 ∧
      (-11 : Int) < -((10 : Nat) : Int) := by decide

theorem test_witness_CommandRegionFollowsTheWord :
    decode 0x00000076#32 = .ok (.opacm true true) ∧ decode 0x00000008#32 = .ok (.fill false false) := by decide

theorem test_witness_InterpolatorValueAndGuard : (255 : Int) ≠ 0 ∧ (-1 : Int) ≠ 0 := by decide

theorem test_witness_InterpolatorStaysBetweenTheEnds :
    (0 : Int) < 255 ∧ (0 : Int) ≤ 255 ∧ (255 : Int) ≤ 255 ∧ (0 : Int) ≤ 0 := by decide

theorem test_witness_InterpolatorClosedForms :
    255 ≤ 255 ∧ 65025 ≤ 65025 ∧ 65280 ≤ 65280 ∧ (0 : Int) ≤ 255 ∧ (255 : Int) ≤ 255 ∧ (0 : Int) < 1 ∧ (1 : Int) < 2 := by decide

theorem test_witness_BlendPair_transparent : alphaOf 0x00FFFFFF#32 = 0#8 := by decide

theorem test_witness_BlendPair_opaque : alphaOf 0xFF123456#32 = 255#8 ∧ alphaOf 0xFF123456#32 ≠ 0#8 := by decide

theorem test_witness_BlendPairProperties_onto_transparent :
    alphaOf 0x00FFFFFF#32 = 0#8 ∧ alphaOf 0x01123456#32 ≠ 0#8 := by decide

theorem test_witness_GradientPixelLanes : 0 < 1 ∧ 1 < 2 := by decide

theorem test_witness_ScaleFunctionProperties : 255#9 ≤ 256#9 ∧ 1#8 ≠ 0#8 := by decide

theorem test_witness_BlendWritesTheBlendToResult :
    alphaOf (running .blend bothOps []).latch.ops.color2 ≠ 0#8 ∧
      alphaOf (running .blend OperandRegs.reset []).latch.ops.color2 = 0#8 := by decide

theorem test_witness_BlendbufBlendsSourceOverDestination :
    let s := running (.blendbuf false false) bothOps twoBuffers
    RegionReady (.blendbuf false false) s 0 3 ∧ admitsPixels s.launch .read s.latch.ops.src 0 3 ∧
      admitsPixels s.launch .read s.latch.ops.dst 0 3 ∧ admitsPixels s.launch .write s.latch.ops.dst 0 3 := by
  decide

/-- A transparent source pixel needs no access to its destination pixel. -/
theorem test_witness_BlendbufBlendsSourceOverDestination_skips :
    let s := { running (.blendbuf false true) { bothOps with endPos := 0#32 } twoBuffers with
      launch := { Launch.default with regions := [⟨0x2000, 4, true, false⟩] } }
    RegionReady (.blendbuf false true) s 0 0 ∧ admitsPixels s.launch .read s.latch.ops.src 0 0 ∧
      alphaOf (s.pixel s.latch.ops.src 0) = 0#8 := by decide

theorem test_witness_GradWritesTheGradient :
    let s := running (.grad false false) bothOps twoBuffers
    RegionReady (.grad false false) s 0 3 ∧ admitsPixels s.launch .write s.latch.ops.dst 0 3 := by decide

theorem test_witness_GradWritesTheGradient_one_pixel :
    let s := running (.grad true false) { bothOps with startPos := 3#32 } twoBuffers
    RegionReady (.grad true false) s 3 3 ∧ admitsPixels s.launch .write s.latch.ops.dst 3 3 := by decide

theorem test_witness_BlendcBlendsTheColorOverRegion :
    let s := running (.blendc true true) bothOps twoBuffers
    RegionReady (.blendc true true) s 0 3 ∧ alphaOf s.latch.ops.color1 ≠ 0#8 ∧
      admitsPixels s.launch .read s.latch.ops.dst 0 3 ∧ admitsPixels s.launch .write s.latch.ops.dst 0 3 := by decide

theorem test_witness_OpacScalesAlphaOverRegion :
    let s := running (.opac true false 511#9) { bothOps with startPos := -1#32 } twoBuffers
    RegionReady (.opac true false 511#9) s 3 3 ∧ admitsPixels s.launch .read s.latch.ops.dst 3 3 ∧
      admitsPixels s.launch .write s.latch.ops.dst 3 3 := by decide

theorem test_witness_OpacmScalesAlphaByTheMask :
    let s := running (.opacm false false) bothOps twoBuffers
    RegionReady (.opacm false false) s 0 3 ∧ admitsPixels s.launch .read s.latch.ops.dst 0 3 ∧
      admitsPixels s.launch .read s.latch.ops.src 0 3 ∧ admitsPixels s.launch .write s.latch.ops.dst 0 3 := by decide

/-- Source and destination may have one base. -/
theorem test_witness_OpacmScalesAlphaByTheMask_same_base :
    let s := running (.opacm false false) { bothOps with srcBase := 0x1000#32 } twoBuffers
    RegionReady (.opacm false false) s 0 3 ∧ admitsPixels s.launch .read s.latch.ops.dst 0 3 ∧
      admitsPixels s.launch .read s.latch.ops.src 0 3 ∧ admitsPixels s.launch .write s.latch.ops.dst 0 3 := by decide

theorem test_witness_BrightScalesColorsOverRegion :
    let s := running (.bright false true 0#9) { bothOps with endPos := 0#32 } twoBuffers
    RegionReady (.bright false true 0#9) s 0 0 ∧ admitsPixels s.launch .read s.latch.ops.dst 0 0 ∧
      admitsPixels s.launch .write s.latch.ops.dst 0 0 := by decide

theorem test_witness_BrightmScalesColorsByTheMask :
    let s := running (.brightm false false) bothOps twoBuffers
    RegionReady (.brightm false false) s 0 3 ∧ admitsPixels s.launch .read s.latch.ops.dst 0 3 ∧
      admitsPixels s.launch .read s.latch.ops.src 0 3 ∧ admitsPixels s.launch .write s.latch.ops.dst 0 3 := by decide

theorem test_witness_FillWritesTheColorOverRegion :
    let s := running (.fill false false) bothOps []
    RegionReady (.fill false false) s 0 3 ∧ admitsPixels s.launch .write s.latch.ops.dst 0 3 := by decide

theorem test_witness_EmptyRegionIsANoOp :
    let o := { bothOps with startPos := 4#32 }
    usesDst (.opacm true false) = true ∧ o.dst.valid = true ∧ o.src.valid = true ∧
      commandRegion (.opacm true false) o = none := by decide

theorem test_witness_EmptyRegionIsANoOp_invalid :
    usesDst (.opacm true false) = true ∧ OperandRegs.reset.dst.valid = false ∧
      (usesSrc (.opacm true false) = true ∧ OperandRegs.reset.src.valid = false) := by decide

/-- Boundaries of R62: a buffer that ends at 2^32 is valid, one byte longer is not, nor is a null or unaligned base. -/
theorem test_witness_ArgumentErrors :
    Descriptor.valid ⟨0xFFFFFFF0#32, 0x10#32⟩ = true ∧ Descriptor.valid ⟨0xFFFFFFF0#32, 0x11#32⟩ = false ∧
      Descriptor.valid ⟨0#32, 4#32⟩ = false ∧ Descriptor.valid ⟨0x1002#32, 4#32⟩ = false ∧
      (Instr.fill false false ≠ .blend ∧ ∀ w, Instr.fill false false ≠ .blendl w) :=
  ⟨by decide, by decide, by decide, by decide, by decide, fun _ h => Instr.noConfusion h⟩

theorem test_witness_ArgumentErrors_source :
    let s := running (.blendbuf false false) { bothOps with srcBase := 0x2001#32 } []
    Instr.blendbuf false false ∈ [.blendbuf false false, .opacm false false, .brightm false false] ∧
      s.latch.ops.dst.valid = true ∧ s.latch.ops.src.valid = false ∧
      (nextOf (exec (.blendbuf false false) s)).map (·.status.err) = some .argSrc := by decide

theorem test_witness_BlendcTransparentColorIsANoOp :
    let o := { bothOps with color1 := 0x00FFFFFF#32 }
    o.dst.valid = true ∧ alphaOf o.color1 = 0#8 := by decide

/-- The ranges meet in one pixel; its first and last byte. -/
theorem test_witness_PartialOverlapIsUndefined :
    let o := { bothOps with srcBase := 0x100C#32 }
    usesSrc (.brightm false false) = true ∧ o.dst.valid = true ∧ o.src.valid = true ∧
      commandRegion (.brightm false false) o = some (0, 3) ∧ o.srcBase ≠ o.dstBase ∧
      ∀ a ∈ [0x100C, 0x100F], o.srcBase.toNat + 4 * 0 ≤ a ∧ a < o.srcBase.toNat + 4 * 3 + 4 ∧
        o.dstBase.toNat + 4 * 0 ≤ a ∧ a < o.dstBase.toNat + 4 * 3 + 4 := by decide

/-- `Mem` ends before pixel 3, the last of the region. -/
theorem test_witness_UnadmittedAccessLeavesTheBlockStuck :
    let s := { running (.blendc false false) bothOps twoBuffers with launch := shortLaunch }
    RegionReady (.blendc false false) s 0 3 ∧ alphaOf s.latch.ops.color1 ≠ 0#8 ∧
      accessDenied (.blendc false false) s 3 = true ∧ accessDenied (.blendc false false) s 2 = false ∧
      accessDenied (.opacm false false) s 3 = true := by decide

/-- A transparent source pixel (0) needs no destination access, an opaque one (1) no destination read, and any other (2) both;
the destination is readable only, or writable only. -/
theorem test_witness_UnadmittedAccessLeavesTheBlockStuck_blendbuf :
    let s := running (.blendbuf false false) bothOps twoBuffers
    let noWrite := { s with launch := { Launch.default with regions := [⟨0x1000, 16, true, false⟩, ⟨0x2000, 16, true, false⟩] } }
    let noRead := { s with launch := { Launch.default with regions := [⟨0x1000, 16, false, true⟩, ⟨0x2000, 16, true, false⟩] } }
    RegionReady (.blendbuf false false) noWrite 0 3 ∧ RegionReady (.blendbuf false false) noRead 0 3 ∧
      [0, 1, 2].map (accessDenied (.blendbuf false false) noWrite) = [false, true, true] ∧
      [0, 1, 2].map (accessDenied (.blendbuf false false) noRead) = [false, false, true] := by decide

theorem test_witness_BlendcWithAnOpaqueColorIsFill :
    let s := running (.fill false false) { bothOps with color1 := 0xFF123456#32 } twoBuffers
    alphaOf s.latch.ops.color1 = 255#8 ∧ commandRegion (.fill false false) s.latch.ops = some (0, 3) ∧
      admitsPixels s.launch .read s.latch.ops.dst 0 3 := by decide

theorem test_witness_BlendcIsBlendbufFromAConstantSource :
    let s := running (.blendbuf false false) bothOps
      (pixelsAt 0x2000 (List.replicate 4 0x80402010#32) (pixelsAt 0x1000 [0x01010101#32, 0x02020202#32] []))
    RegionReady (.blendbuf false false) s 0 3 ∧ s.latch.ops.dst.count ≤ s.latch.ops.src.count ∧
      (∀ i, i < s.latch.ops.src.count → s.pixel s.latch.ops.src i = s.latch.ops.color1) ∧
      admitsPixels s.launch .read s.latch.ops.src 0 3 ∧ admitsPixels s.launch .read s.latch.ops.dst 0 3 ∧
      admitsPixels s.launch .write s.latch.ops.dst 0 3 := by decide

theorem test_witness_FillThenIdentityScalesIsFill :
    let s := running (.fill true true) bothOps twoBuffers
    255#9 ∈ [255#9, 256#9] ∧ 256#9 ∈ [255#9, 256#9] ∧ s.regs = s.latch.ops ∧ RegionReady (.fill true true) s 0 3 ∧
      admitsPixels s.launch .read s.latch.ops.dst 0 3 ∧ admitsPixels s.launch .write s.latch.ops.dst 0 3 := by decide

theorem test_witness_RegisterReadsHaveNoSideEffect :
    ∃ t, hostTurn (.readReg 0x3C 32) State.reset = .next t := next_of_isSome (by decide)

theorem test_witness_ReservedOffsets :
    0x2C ∈ [0x2C, 0x30, 0x34, 0x38, 0x3C] ∧ 0x3C ∈ [0x2C, 0x30, 0x34, 0x38, 0x3C] := by decide

theorem test_witness_OddRegisterAccessesAreRefused :
    (63 < 64 ∧ (32 ≠ 32 ∨ 63 % 4 ≠ 0)) ∧ (0 < 64 ∧ (8 ≠ 32 ∨ 0 % 4 ≠ 0)) := by decide

theorem test_witness_CmdWriteIssuesOrIsDropped :
    (running .blend bothOps []).status.busy = true ∧ State.reset.status.busy = false ∧
      (∃ t, blockTurn (running .blend bothOps []) = .next t) ∧
      (nextOf (hostTurn (.writeReg 0x00 32 8#32) State.reset)).map (fun t => t.cmd == State.reset.cmd) = some false :=
  ⟨by decide, by decide, next_of_isSome (by decide), by decide⟩

theorem test_witness_OperandWritesLandAtOnce :
    Reg.SRC_LEN ≠ .CMD ∧ Reg.SRC_LEN ≠ .STATUS ∧ Reg.SRC_LEN ≠ .RESULT ∧ Reg.COLOR1 ≠ .SRC_LEN := by decide

theorem test_witness_PixelBytesFollowTheByteOrder :
    let s := { State.reset with launch := { Launch.default with byteOrder := .be } }
    (0xFFFFFFFC#32).toNat % 4 = 0 ∧ handedOverWord s (0xFFFFFFFC#32).toNat = false ∧
      admits s.launch .write (0xFFFFFFFC#32).toNat = true ∧ admits s.launch .read (0xFFFFFFFC#32).toNat = true ∧
      s.launch.byteOrder = .be ∧ State.reset.launch.byteOrder = .le ∧ handedOverWord State.reset 0 = false ∧
      admits State.reset.launch .write 0 = true := by decide

/-- The first and the last byte of both buffers, and the words that hold them. -/
theorem test_witness_HandedOverBytesHaveNoHostMove :
    let s := running (.blendbuf false false) bothOps twoBuffers
    s.status.busy = true ∧ decode s.latch.cmd = .ok (.blendbuf false false) ∧
      [0x1000, 0x100F].all (fun a => usesDst (.blendbuf false false) && s.latch.ops.dst.covers a) = true ∧
      [0x2000, 0x200F].all (fun a => usesSrc (.blendbuf false false) && s.latch.ops.src.covers a) = true ∧
      (0x100F#32).toNat = 0x100F ∧ (0x100C#32).toNat % 4 = 0 ∧ (0x100C#32).toNat ≤ 0x100F ∧
      0x100F < (0x100C#32).toNat + 4 := by decide

end Sys2Proof.Tests
end

/-! SUPPORT. The launch parameters (R10): what each turn of the block and of the host can leave behind, and from it that no
step changes `REG_BASE`, the byte order, `Mem` or `MASK_BRIGHT_FN`. -/

namespace Sys2Proof.Machine

/-! ### What a command leaves behind -/

/-- A region command that answers changes at most memory and STATUS (R43, R170). -/
theorem runRegion_frame {readsSrc sBit eBit : Bool} {body : Nat → Nat → Memory → Except Fault Memory} {s t : State}
    (h : runRegion readsSrc sBit eBit body s = .next t) : ∃ m e, t = (s.withMem m).complete e := by
  obtain ⟨e, -, run⟩ | ⟨-, run⟩ | ⟨-, run⟩ | ⟨_, _, r, -, -, run⟩ | ⟨_, _, m, -, -, run⟩ :=
    runRegion_cases readsSrc sBit eBit body s
  all_goals rw [run] at h; cases h
  case inl => exact ⟨s.mem, e, rfl⟩
  case inr.inl => exact ⟨s.mem, .ok, rfl⟩
  case inr.inr.inr.inr => exact ⟨m, .ok, rfl⟩

/-- BLENDC changes at most memory and STATUS, also where it ends before its region (R176). -/
theorem execBlendc_frame {sBit eBit : Bool} {s t : State} (h : execBlendc sBit eBit s = .next t) :
    ∃ m e, t = (s.withMem m).complete e := by
  unfold execBlendc at h
  split at h
  · next e _ => exact ⟨s.mem, e, (Host.Outcome.next.inj h).symm⟩
  · split at h
    · exact ⟨s.mem, .ok, (Host.Outcome.next.inj h).symm⟩
    · exact runRegion_frame h

/-- A command that answers has completed: a single-pixel form changed RESULT and STATUS alone, a form with a destination
memory and STATUS alone (R29, R43). -/
theorem exec_frame {i : Instr} {s t : State} (h : exec i s = .next t) :
    (usesDst i = false ∧ ∃ v, t = (s.withResult v).complete .ok) ∨
    (usesDst i = true ∧ ∃ m e, t = (s.withMem m).complete e) := by
  cases i with
  | blend => exact .inl ⟨rfl, _, (Host.Outcome.next.inj h).symm⟩
  | blendl alpha => exact .inl ⟨rfl, _, (Host.Outcome.next.inj h).symm⟩
  | blendc sBit eBit => exact .inr ⟨rfl, execBlendc_frame h⟩
  | blendbuf sBit eBit => exact .inr ⟨rfl, runRegion_frame h⟩
  | grad sBit eBit => exact .inr ⟨rfl, runRegion_frame h⟩
  | opac sBit eBit scale => exact .inr ⟨rfl, runRegion_frame h⟩
  | opacm sBit eBit => exact .inr ⟨rfl, runRegion_frame h⟩
  | bright sBit eBit scale => exact .inr ⟨rfl, runRegion_frame h⟩
  | brightm sBit eBit => exact .inr ⟨rfl, runRegion_frame h⟩
  | fill sBit eBit => exact .inr ⟨rfl, runRegion_frame h⟩

/-- Everything a turn of the block can do: wait while IDLE (R242), complete an illegal word (R98), or run the latched
command (R43, R231). -/
theorem blockTurn_cases {s t : State} (h : blockTurn s = .next t) :
    (s.status.busy = false ∧ t = s) ∨
    (s.status.busy = true ∧ (∃ r, decode s.latch.cmd = .error r) ∧ t = s.complete .illegal) ∨
    (s.status.busy = true ∧ ∃ i, decode s.latch.cmd = .ok i ∧ exec i s = .next t) := by
  unfold blockTurn executeLatched at h
  split at h
  · next busy =>
    split at h
    · next i legal => exact .inr (.inr ⟨busy, i, legal, h⟩)
    · next r illegal => exact .inr (.inl ⟨busy, ⟨r, illegal⟩, (Host.Outcome.next.inj h).symm⟩)
  · next idle => exact .inl ⟨by simpa using idle, (Host.Outcome.next.inj h).symm⟩

/-! ### What a move of the host leaves behind -/

/-- Everything a turn of the host can do: receive a value, write the register window, write a pixel word or a byte, poll
STATUS while BUSY, or reset (R241, R260). -/
theorem hostTurn_cases {m : HostMove} {s t : State} (h : hostTurn m s = .next t) :
    (∃ v, t = s.receive v) ∨
    (∃ addr width v off, m = .writeReg addr width v ∧ windowOffset s.launch addr width = .ok off ∧
      t = writeWindow off v s) ∨
    (∃ addr v, m = .storePixel addr v ∧ hostWordRefusal .write s addr.toNat = none ∧
      t = s.withMem (s.mem.writeWord s.launch.byteOrder addr.toNat v)) ∨
    (∃ addr v, m = .storeByte addr v ∧ hostByteRefusal .write s addr.toNat = none ∧
      t = s.withMem (s.mem.write addr.toNat v)) ∨
    (m = .wait ∧ s.status.busy = true ∧
      t = (s.receive s.status.word).withScript (.block :: .host .wait :: s.script)) ∨
    (∃ draws junk, m = .reset draws junk ∧
      t = (s.withMem (if s.status.busy then discardedMemory draws s else s.mem)).resetRegisters junk) := by
  cases m with
  | readReg addr width =>
    simp only [hostTurn, hostReadReg] at h
    split at h <;> cases h
    exact .inl ⟨_, rfl⟩
  | writeReg addr width v =>
    simp only [hostTurn, hostWriteReg] at h
    split at h <;> cases h
    next off reached => exact .inr (.inl ⟨addr, width, v, off, rfl, reached, rfl⟩)
  | loadPixel addr expected =>
    simp only [hostTurn, hostLoadPixel] at h
    split at h <;> cases h
    exact .inl ⟨_, rfl⟩
  | storePixel addr v =>
    simp only [hostTurn, hostStorePixel] at h
    split at h <;> cases h
    next allowed => exact .inr (.inr (.inl ⟨addr, v, rfl, allowed, rfl⟩))
  | loadByte addr =>
    simp only [hostTurn, hostLoadByte] at h
    split at h <;> cases h
    exact .inl ⟨_, rfl⟩
  | storeByte addr v =>
    simp only [hostTurn, hostStoreByte] at h
    split at h <;> cases h
    next allowed => exact .inr (.inr (.inr (.inl ⟨addr, v, rfl, allowed, rfl⟩)))
  | wait =>
    simp only [hostTurn, hostWait] at h
    split at h <;> cases h
    next busy => exact .inr (.inr (.inr (.inr (.inl ⟨rfl, busy, rfl⟩))))
    next => exact .inl ⟨_, rfl⟩
  | reset draws junk =>
    exact .inr (.inr (.inr (.inr (.inr ⟨draws, junk, rfl, (Host.Outcome.next.inj h).symm⟩))))

/-- Everything a step can do: the turn is the block's, first in the script or because none is left, or it is a move of the
host (R240, R275). -/
theorem step_cases {s t : State} (h : step s = .next t) :
    (∃ rest, (s.script = .block :: rest ∨ s.script = [] ∧ rest = []) ∧ blockTurn (s.withScript rest) = .next t) ∨
    (∃ m rest, s.script = .host m :: rest ∧ hostTurn m (s.withScript rest) = .next t) := by
  obtain ⟨cmd, status, result, regs, latch, mem, launch, script, received⟩ := s
  match script with
  | [] => exact .inl ⟨[], .inr ⟨rfl, rfl⟩, h⟩
  | .block :: rest => exact .inl ⟨rest, .inl rfl, h⟩
  | .host m :: rest => exact .inr ⟨m, rest, rfl, h⟩

/-! ### The launch parameters -/

@[simp] theorem writeSlot_launch (r : Reg) (v : Word) (s : State) : (writeSlot r v s).launch = s.launch := by
  obtain ⟨-, -, w⟩ | ⟨-, -, w⟩ | ⟨-, w⟩ | ⟨-, w⟩ | ⟨o, w⟩ := writeSlot_cases r v s <;> simp [w]

@[simp] theorem writeWindow_launch (off : Nat) (v : Word) (s : State) : (writeWindow off v s).launch = s.launch := by
  obtain ⟨-, w⟩ | ⟨r, -, w⟩ := writeWindow_cases off v s <;> simp [w]

theorem exec_keeps_launch {i : Instr} {s t : State} (h : exec i s = .next t) : t.launch = s.launch := by
  obtain ⟨-, v, rfl⟩ | ⟨-, m, e, rfl⟩ := exec_frame h <;> simp

theorem blockTurn_keeps_launch {s t : State} (h : blockTurn s = .next t) : t.launch = s.launch := by
  obtain ⟨-, rfl⟩ | ⟨-, -, rfl⟩ | ⟨-, i, -, run⟩ := blockTurn_cases h
  · rfl
  · simp
  · exact exec_keeps_launch run

theorem hostTurn_keeps_launch {m : HostMove} {s t : State} (h : hostTurn m s = .next t) : t.launch = s.launch := by
  obtain ⟨v, rfl⟩ | ⟨_, _, v, off, -, -, rfl⟩ | ⟨_, v, -, -, rfl⟩ | ⟨_, v, -, -, rfl⟩ | ⟨-, -, rfl⟩ | ⟨_, junk, -, rfl⟩ :=
    hostTurn_cases h <;> simp

/-- Settles O13: the block's turn and every move of the host keep the launch (R10, R64). -/
theorem stepKeepsTheLaunch : Obligations.StepKeepsTheLaunch := by
  intro s t h
  obtain ⟨rest, -, turn⟩ | ⟨m, rest, -, turn⟩ := step_cases h
  · exact (blockTurn_keeps_launch turn).trans (State.withScript_launch rest s)
  · exact (hostTurn_keeps_launch turn).trans (State.withScript_launch rest s)

end Sys2Proof.Machine

/-! SUPPORT. The register window (10_state.md): what each access of the host finds there, the bits of STATUS, and which moves
change CMD. -/

namespace Sys2Proof.Machine

/-! ### Where an access of the window lands -/

/-- A 32-bit access at an aligned offset of the window reaches that offset (R20, R21). -/
theorem windowOffset_aligned (l : Launch) {off : Nat} (inside : off < 64) (aligned : off % 4 = 0) :
    windowOffset l (l.regBase + off) 32 = .ok off := by
  unfold windowOffset Config.windowBytes
  rw [if_neg (by omega), if_neg (by omega), Nat.add_sub_cancel_left]

/-- Inside the window an access of another width or alignment is refused by name (R21). -/
theorem windowOffset_odd (l : Launch) {off width : Nat} (inside : off < 64) (odd : width ≠ 32 ∨ off % 4 ≠ 0) :
    windowOffset l (l.regBase + off) width = .error .registerAccess := by
  unfold windowOffset Config.windowBytes
  rw [if_neg (by omega), Nat.add_sub_cancel_left, if_pos odd]

/-- An access that reaches an offset is 32 bits wide and lies there (R20, R21). -/
theorem windowOffset_ok {l : Launch} {addr width off : Nat} (h : windowOffset l addr width = .ok off) :
    addr = l.regBase + off ∧ width = 32 := by
  unfold windowOffset at h
  split at h
  · cases h
  · split at h
    · cases h
    · cases h
      omega

/-- The slot found at an offset is the slot of that offset (R20). -/
theorem Reg.offset_of_at? {off : Nat} {r : Reg} (h : Reg.at? off = some r) : r.offset = off := by
  simpa using List.find?_some h

theorem Reg.at?_reserved {off : Nat} (h : off ∈ [0x2C, 0x30, 0x34, 0x38, 0x3C]) : Reg.at? off = none := by
  revert off
  decide

/-! ### The host's register moves -/

theorem hostTurn_readReg_reached {addr width off : Nat} {s : State} (h : windowOffset s.launch addr width = .ok off) :
    hostTurn (.readReg addr width) s = .next (s.receive (readWindow off s)) := by
  simp only [hostTurn, hostReadReg, h]

theorem hostTurn_writeReg_reached {addr width off : Nat} {s : State} (v : Word)
    (h : windowOffset s.launch addr width = .ok off) :
    hostTurn (.writeReg addr width v) s = .next (writeWindow off v s) := by
  simp only [hostTurn, hostWriteReg, h]

theorem hostTurn_readReg_refused {addr width : Nat} {s : State} {r : Refusal}
    (h : windowOffset s.launch addr width = .error r) : hostTurn (.readReg addr width) s = .refused r := by
  simp only [hostTurn, hostReadReg, h]

theorem hostTurn_writeReg_refused {addr width : Nat} {s : State} {r : Refusal} (v : Word)
    (h : windowOffset s.launch addr width = .error r) : hostTurn (.writeReg addr width v) s = .refused r := by
  simp only [hostTurn, hostWriteReg, h]

/-- A read at a register's address returns that register (R20, R23). -/
theorem hostTurn_readReg_slot (r : Reg) (s : State) :
    hostTurn (.readReg (s.launch.regBase + r.offset) 32) s = .next (s.receive (readSlot r s)) := by
  rw [hostTurn_readReg_reached (windowOffset_reg s.launch r)]
  simp only [readWindow, Reg.at?_offset]

/-- A write at a register's address is the write of that slot (R20, R24, R27, R38). -/
theorem hostTurn_writeReg_slot (r : Reg) (v : Word) (s : State) :
    hostTurn (.writeReg (s.launch.regBase + r.offset) 32 v) s = .next (writeSlot r v s) := by
  rw [hostTurn_writeReg_reached v (windowOffset_reg s.launch r)]
  simp only [writeWindow, Reg.at?_offset]

theorem writeSlot_CMD_busy (v : Word) {s : State} (busy : s.status.busy = true) :
    writeSlot .CMD v s = { s with status := s.status.dropped } := by
  simp only [writeSlot, busy, if_true]

theorem writeSlot_CMD_idle (v : Word) {s : State} (idle : s.status.busy = false) : writeSlot .CMD v s = s.accept v := by
  simp [writeSlot, idle]

/-- Only an accepted CMD write changes CMD (R24). -/
theorem writeSlot_changes_cmd {r : Reg} {v : Word} {s : State} (h : (writeSlot r v s).cmd ≠ s.cmd) :
    r = .CMD ∧ s.status.busy = false ∧ writeSlot r v s = s.accept v := by
  obtain ⟨-, -, w⟩ | accepted | ⟨-, w⟩ | ⟨-, w⟩ | ⟨o, w⟩ := writeSlot_cases r v s
  case inr.inl => exact accepted
  all_goals exact absurd (congrArg State.cmd w) h

/-- The slots that hold an operand (R30 to R37). -/
abbrev Reg.IsOperand (r : Reg) : Prop := r ≠ .CMD ∧ r ≠ .STATUS ∧ r ≠ .RESULT

/-- A write of an operand register changes the operand registers alone (R38). -/
theorem writeSlot_operand {r : Reg} (operand : r.IsOperand) (v : Word) (s : State) :
    writeSlot r v s = s.withRegs (writeSlot r v s).regs := by
  obtain ⟨notCmd, notStatus, notResult⟩ := operand
  obtain ⟨cmd, -⟩ | ⟨cmd, -⟩ | ⟨status, -⟩ | ⟨result, -⟩ | ⟨o, w⟩ := writeSlot_cases r v s
  · exact absurd cmd notCmd
  · exact absurd cmd notCmd
  · exact absurd status notStatus
  · exact absurd result notResult
  · simp only [w, State.withRegs_regs]

/-- An operand register reads as it was last written (R38). -/
theorem readSlot_writeSlot_self {r : Reg} (operand : r.IsOperand) (v : Word) (s : State) :
    readSlot r (writeSlot r v s) = v := by
  obtain ⟨notCmd, notStatus, notResult⟩ := operand
  cases r with
  | CMD => exact absurd rfl notCmd
  | STATUS => exact absurd rfl notStatus
  | RESULT => exact absurd rfl notResult
  | _ => rfl

/-- A write of an operand register leaves every other slot as it reads (R38). -/
theorem readSlot_writeSlot_other {r q : Reg} (operand : r.IsOperand) (v : Word) (s : State) (other : q ≠ r) :
    readSlot q (writeSlot r v s) = readSlot q s := by
  obtain ⟨notCmd, notStatus, notResult⟩ := operand
  cases r with
  | CMD => exact absurd rfl notCmd
  | STATUS => exact absurd rfl notStatus
  | RESULT => exact absurd rfl notResult
  | _ => cases q <;> trivial

/-! ### The STATUS word -/

/-- The bits of the STATUS word below ERR: BUSY, DONE, IGN and a reserved bit (R25). -/
theorem Status.word_low (st : Status) :
    st.word.getLsbD 0 = st.busy ∧ st.word.getLsbD 1 = st.done ∧ st.word.getLsbD 2 = st.ign ∧
      st.word.getLsbD 3 = false := by
  simp only [Status.word, BitVec.getLsbD_setWidth, BitVec.getLsbD_append, BitVec.getLsbD_ofBool]
  simp

/-- Bits 5:4 of the STATUS word are the code of ERR (R25, R28). -/
theorem Status.word_err (st : Status) : st.word.extractLsb' 4 2 = st.err.bits := by
  apply BitVec.eq_of_getLsbD_eq
  intro i hi
  simp only [Status.word, BitVec.getLsbD_extractLsb', BitVec.getLsbD_setWidth, BitVec.getLsbD_append]
  interval_cases i <;> simp

/-- Bits 31:6 of the STATUS word read 0 (R25). -/
theorem Status.word_reserved (st : Status) : st.word.extractLsb' 6 26 = 0#26 := by
  apply BitVec.eq_of_getLsbD_eq
  intro i hi
  simp [Status.word]

/-- A write to STATUS with bit 2 clear changes nothing (R27). -/
theorem Status.written_keep {w : Word} (st : Status) (keep : w.getLsbD 2 = false) : st.written w = st := by
  simp only [Status.written, keep, Bool.not_false, Bool.and_true]

/-- A write to STATUS with bit 2 set clears IGN (R27). -/
theorem Status.written_clear {w : Word} (st : Status) (clear : w.getLsbD 2 = true) :
    st.written w = { st with ign := false } := by
  simp only [Status.written, clear, Bool.not_true, Bool.and_false]

/-! ### The statements about the window -/

/-- Settles O6: each slot of `State.reset` holds 0, and the empty memory is canonical (R20, R44). -/
theorem resetRegistersReadZero : Obligations.ResetRegistersReadZero := by
  refine ⟨fun r => ?_, rfl, rfl⟩
  cases r with
  | STATUS => decide
  | _ => rfl

/-- A BUSY block whose latched word decodes runs that command (R43, R231). -/
theorem blockTurn_runs {i : Instr} {s : State} (busy : s.status.busy = true) (legal : decode s.latch.cmd = .ok i) :
    blockTurn s = exec i s := by
  simp only [blockTurn, busy, if_true, executeLatched, legal]

/-- Where the block's turn comes next, the step is that turn, taken from the script (R240, R275). -/
theorem step_of_blockNext {s : State} (next : s.blockNext = true) : step s = blockTurn s.turnTaken := by
  obtain ⟨cmd, status, result, regs, latch, mem, launch, script, received⟩ := s
  match script with
  | [] => rfl
  | .block :: rest => rfl
  | .host m :: rest => cases next

/-- Taking the block's turn from the script changes the script alone. -/
theorem State.turnTaken_eq (s : State) : ∃ l, s.turnTaken = s.withScript l := by
  obtain ⟨cmd, status, result, regs, latch, mem, launch, script, received⟩ := s
  match script with
  | [] => exact ⟨[], rfl⟩
  | .block :: rest => exact ⟨rest, rfl⟩
  | .host m :: rest => exact ⟨.host m :: rest, rfl⟩

/-- Settles O10: the step is the block's turn (R240), and that turn runs the latched command (R43, R231). -/
theorem stepRunsTheDecodedCommand : Obligations.StepRunsTheDecodedCommand := by
  intro i s next busy legal
  obtain ⟨l, taken⟩ := s.turnTaken_eq
  rw [step_of_blockNext next, taken]
  exact blockTurn_runs busy legal

/-- Settles O52: a read that answers only receives (R23); the eleven offsets are those of the eleven slots (R20). -/
theorem registerReadsHaveNoSideEffect : Obligations.RegisterReadsHaveNoSideEffect := by
  refine ⟨fun addr width s t h => ?_, fun s e listed => ?_, hostTurn_readReg_slot⟩
  · cases reached : windowOffset s.launch addr width with
    | error r => rw [hostTurn_readReg_refused reached] at h; cases h
    | ok off => rw [hostTurn_readReg_reached reached] at h; cases h; rfl
  · change e ∈ Reg.all.map (fun r => (r.offset, readSlot r s)) at listed
    obtain ⟨r, -, rfl⟩ := List.mem_map.1 listed
    exact hostTurn_readReg_slot r s

/-- Settles O53: no slot lies at a reserved offset (R22). -/
theorem reservedOffsetsReadZeroAndIgnoreWrites : Obligations.ReservedOffsetsReadZeroAndIgnoreWrites := by
  intro off v s reserved
  have inWindow : off < 64 ∧ off % 4 = 0 := by
    revert off
    decide
  have reached := windowOffset_aligned s.launch inWindow.1 inWindow.2
  have noSlot := Reg.at?_reserved reserved
  rw [hostTurn_readReg_reached reached, hostTurn_writeReg_reached v reached]
  simp only [readWindow, writeWindow, noSlot, and_true]
  rfl

/-- Settles O54: the window refuses the access before a slot is looked up (R21). -/
theorem oddRegisterAccessesAreRefused : Obligations.OddRegisterAccessesAreRefused := by
  intro off width v s inside odd
  have refused := windowOffset_odd s.launch inside odd
  exact ⟨hostTurn_readReg_refused refused, hostTurn_writeReg_refused v refused⟩

/-- Settles O56: bit 2 of the word written decides what `Status.written` keeps (R27). -/
theorem statusWriteClearsOnlyIgn : Obligations.StatusWriteClearsOnlyIgn := by
  intro w s
  have written : hostTurn (.writeReg (s.launch.regBase + 0x04) 32 w) s = .next { s with status := s.status.written w } :=
    hostTurn_writeReg_slot .STATUS w s
  rw [written]
  split
  · next clear => rw [Status.written_clear s.status clear]
  · next keep => rw [Status.written_keep s.status (Bool.eq_false_of_not_eq_true keep)]

/-- Settles O57: the read at 0x04 returns the STATUS word, whose bits are those of R25. -/
theorem statusWordLayout : Obligations.StatusWordLayout := by
  intro s
  obtain ⟨busy, done, ign, bit3⟩ := s.status.word_low
  exact ⟨s.status.word, hostTurn_readReg_slot .STATUS s, rfl, busy, done, ign, bit3, s.status.word_err,
    s.status.word_reserved⟩

/-- Settles O58: an operand write changes the operand registers alone, and acceptance copies them (R38, R40). -/
theorem operandWritesLandAtOnce : Obligations.OperandWritesLandAtOnce := by
  intro r v s notCmd notStatus notResult
  have operand : r.IsOperand := ⟨notCmd, notStatus, notResult⟩
  refine ⟨writeSlot r v s, hostTurn_writeReg_slot r v s, writeSlot_operand operand v s,
    readSlot_writeSlot_self operand v s, fun q => readSlot_writeSlot_other operand v s, fun idle w => ?_⟩
  rw [writeSlot_CMD_idle w idle, State.accept_latch]

/-- CMD lies at the first address of the window (R20). -/
theorem hostTurn_writeReg_CMD (v : Word) (s : State) :
    hostTurn (.writeReg s.launch.regBase 32 v) s = .next (writeSlot .CMD v s) :=
  hostTurn_writeReg_slot .CMD v s

/-- A move of the host that changes CMD is the CMD write that an IDLE block accepts, or the reset signal (R24, R260). -/
theorem hostTurn_changes_cmd {m : HostMove} {s t : State} (h : hostTurn m s = .next t) (changed : t.cmd ≠ s.cmd) :
    (∃ v, m = .writeReg s.launch.regBase 32 v ∧ t.cmd = v ∧ s.status.busy = false) ∨
      ∃ draws junk, m = .reset draws junk := by
  obtain ⟨v, rfl⟩ | ⟨addr, width, v, off, rfl, reached, rfl⟩ | ⟨_, v, -, -, rfl⟩ | ⟨_, v, -, -, rfl⟩ | ⟨-, -, rfl⟩ |
    ⟨draws, junk, reset, -⟩ := hostTurn_cases h
  case inr.inl =>
    obtain ⟨-, w⟩ | ⟨r, found, w⟩ := writeWindow_cases off v s
    · exact absurd (congrArg State.cmd w) changed
    · rw [w] at changed ⊢
      obtain ⟨rfl, idle, accepted⟩ := writeSlot_changes_cmd changed
      obtain ⟨rfl, rfl⟩ := windowOffset_ok reached
      rw [← Reg.offset_of_at? found]
      exact .inl ⟨v, rfl, congrArg State.cmd accepted, idle⟩
  case inr.inr.inr.inr.inr => exact .inr ⟨draws, junk, reset⟩
  all_goals exact absurd rfl changed

/-- No turn of the block changes CMD (R24). -/
theorem blockTurn_keeps_cmd {s t : State} (h : blockTurn s = .next t) : t.cmd = s.cmd := by
  obtain ⟨-, rfl⟩ | ⟨-, -, rfl⟩ | ⟨-, i, -, run⟩ := blockTurn_cases h
  · rfl
  · rfl
  · obtain ⟨-, v, rfl⟩ | ⟨-, m, e, rfl⟩ := exec_frame run <;> rfl

/-- Settles O55: a CMD write is dropped while BUSY and accepted otherwise, and nothing but acceptance and reset changes CMD
(R24). -/
theorem cmdWriteIssuesOrIsDropped : Obligations.CmdWriteIssuesOrIsDropped := by
  refine ⟨fun v s busy => ?_, fun v s idle => ⟨s.accept v, ?_, rfl, ?_⟩, fun s t => blockTurn_keeps_cmd,
    fun m s t => hostTurn_changes_cmd, rfl⟩
  · rw [hostTurn_writeReg_CMD, writeSlot_CMD_busy v busy]
    rfl
  · rw [hostTurn_writeReg_CMD, writeSlot_CMD_idle v idle]
  · exact hostTurn_readReg_slot .CMD (s.accept v)

end Sys2Proof.Machine

/-! SUPPORT. What a command can do (R43): it writes pixels of its region alone, or RESULT alone, and it reads the latch and
memory alone; and from these the invariant that every step keeps. -/

namespace Sys2Proof.Machine

/-! ### The pixels a command writes -/

/-- A resolved region is not empty and lies below the width (R126). -/
theorem resolve_bounds {width first last : Nat} {a b : Int} (h : resolve width a b = some (first, last)) :
    first ≤ last ∧ last < width := by
  unfold resolve at h
  simp only at h
  split at h
  · cases h
  · split at h
    · cases h
    · simp only [Option.some.injEq, Prod.mk.injEq] at h
      omega

/-- The width a command resolves against is at most the destination's count (R170). -/
theorem effectiveWidth_le (readsSrc : Bool) (o : OperandRegs) : effectiveWidth readsSrc o ≤ o.dst.count := by
  unfold effectiveWidth
  split
  · exact Nat.min_le_left _ _
  · exact Nat.le_refl _

/-- A step at pixel i that can do no more to memory than write pixel i of the buffer d, and can stop only as stuck (R69). -/
structure WritesOwnPixel (order : ByteOrder) (d : Descriptor) (f : Nat → Memory → Except Fault Memory) : Prop where
  writes : ∀ i m m', f i m = .ok m' → m' = m ∨ ∃ v, m' = m.writeWord order (d.pixelAddr i) v
  stops : ∀ i m r, f i m = .error r → r = .stuck

/-- A body that over a region can do no more to memory than write pixels of that region of the buffer d, so that it keeps
whatever each such write keeps, and can stop only as stuck (R69, R70). -/
structure WritesOwnRegion (order : ByteOrder) (d : Descriptor)
    (body : Nat → Nat → Memory → Except Fault Memory) : Prop where
  keeps : ∀ (P : Memory → Prop) first last m m', first ≤ last →
    (∀ k v a, first ≤ k → k ≤ last → P a → P (a.writeWord order (d.pixelAddr k) v)) →
    body first last m = .ok m' → P m → P m'
  stops : ∀ first last m r, body first last m = .error r → r = .stuck

section
variable {l : Launch} {d : Descriptor}

theorem memWrite_writesOwnPixel (v : Nat → Word) :
    WritesOwnPixel l.byteOrder d fun i m => memWrite l m (d.pixelAddr i) (v i) where
  writes _ _ _ h := .inr ⟨_, (memWrite_ok.1 h).2⟩
  stops _ _ _ h := (memWrite_error.1 h).2

theorem memRewrite_writesOwnPixel (f : Word → Word) :
    WritesOwnPixel l.byteOrder d fun i m => memRewrite l m (d.pixelAddr i) f where
  writes _ _ _ h := .inr ⟨_, (memRewrite_ok.1 h).2.2⟩
  stops _ _ _ h := (memRewrite_error.1 h).2

theorem memCombine_writesOwnPixel (other : Nat → Nat) (f : Word → Word → Word) :
    WritesOwnPixel l.byteOrder d fun i m => memCombine l m (d.pixelAddr i) (other i) f where
  writes _ _ _ h := .inr ⟨_, (memCombine_ok.1 h).2.2.2⟩
  stops _ _ _ h := (memCombine_error.1 h).2

end

/-- A pixel of BLENDBUF is left, copied or blended, as the source alpha says (R171). -/
theorem blendbufPixel_writesOwnPixel (l : Launch) (o : OperandRegs) :
    WritesOwnPixel l.byteOrder o.dst (blendbufPixel l o) where
  writes i m m' h := by
    unfold blendbufPixel at h
    split at h
    · cases h
    · split at h
      · cases h
        exact .inl rfl
      · split at h
        · exact .inr ⟨_, (memWrite_ok.1 h).2⟩
        · exact .inr ⟨_, (memRewrite_ok.1 h).2.2⟩
  stops i m r h := by
    unfold blendbufPixel at h
    split at h
    · next stop =>
      cases h
      exact (memRead_error.1 stop).2
    · split at h
      · cases h
      · split at h
        · exact (memWrite_error.1 h).2
        · exact (memRewrite_error.1 h).2

/-- What every write of a pixel keeps, a step at that pixel keeps. -/
theorem WritesOwnPixel.keeps {order : ByteOrder} {d : Descriptor} {f : Nat → Memory → Except Fault Memory}
    (own : WritesOwnPixel order d f) {P : Memory → Prop} {i : Nat} {m m' : Memory}
    (keep : ∀ v, P (m.writeWord order (d.pixelAddr i) v)) (h : f i m = .ok m') (start : P m) : P m' := by
  obtain rfl | ⟨v, rfl⟩ := own.writes i m m' h
  · exact start
  · exact keep v

/-- The pixels of a region in ascending order write no more than that region. -/
theorem eachPixel_writesOwnRegion {order : ByteOrder} {d : Descriptor} {f : Nat → Memory → Except Fault Memory}
    (own : WritesOwnPixel order d f) : WritesOwnRegion order d (eachPixel f) where
  keeps P first last m m' _ keep h start :=
    forPixels_keeps (fun _ => P) h
      (fun j a b _ _ before run => own.keeps (fun v => keep j v a (by omega) (by omega) before) run before) start
  stops first last m r h := by
    obtain ⟨j, a, -, -, stop⟩ := forPixels_error h
    exact own.stops j a r stop

/-- GRAD writes its endpoints and its interior, all inside its region (R174). -/
theorem gradBody_writesOwnRegion (l : Launch) (o : OperandRegs) :
    WritesOwnRegion l.byteOrder o.dst (gradBody l o) where
  keeps P first last m m' ordered keep h start := by
    unfold gradBody at h
    split at h
    · cases h
    · next m1 write1 =>
      have after1 : P m1 := (memWrite_ok.1 write1).2 ▸ keep first _ m (by omega) (by omega) start
      split at h
      · cases h
        exact after1
      · split at h
        · cases h
        · next m2 write2 =>
          have after2 : P m2 := (memWrite_ok.1 write2).2 ▸ keep last _ m1 (by omega) (by omega) after1
          split at h
          · cases h
            exact after2
          · exact (eachPixel_writesOwnRegion (memWrite_writesOwnPixel _)).keeps P (first + 1) (last - 1) m2 m' (by omega)
              (fun k v a low high => keep k v a (by omega) (by omega)) h after2
  stops first last m r h := by
    unfold gradBody at h
    split at h
    · next stop =>
      cases h
      exact (memWrite_error.1 stop).2
    · split at h
      · cases h
      · split at h
        · next stop =>
          cases h
          exact (memWrite_error.1 stop).2
        · split at h
          · cases h
          · exact (eachPixel_writesOwnRegion (memWrite_writesOwnPixel _)).stops _ _ _ _ h

/-! ### A command as a region command -/

/-- The body of a command with a destination (R170); the single-pixel forms have none. -/
def regionBody (i : Instr) (l : Launch) (o : OperandRegs) : Nat → Nat → Memory → Except Fault Memory :=
  match i with
  | .blend => fun _ _ m => .ok m
  | .blendl _ => fun _ _ m => .ok m
  | .blendbuf _ _ => eachPixel (blendbufPixel l o)
  | .grad _ _ => gradBody l o
  | .blendc _ _ => eachPixel (blendcPixel l o)
  | .opac _ _ scale => eachPixel fun k m => memRewrite l m (o.dst.pixelAddr k) (opacityPixel scale)
  | .opacm _ _ => eachPixel fun k m => memCombine l m (o.dst.pixelAddr k) (o.src.pixelAddr k) maskOpacityPixel
  | .bright _ _ scale => eachPixel fun k m => memRewrite l m (o.dst.pixelAddr k) (brightnessPixel scale)
  | .brightm _ _ =>
    eachPixel fun k m => memCombine l m (o.dst.pixelAddr k) (o.src.pixelAddr k) (maskBrightnessPixel l.maskBright)
  | .fill _ _ => eachPixel fun k m => memWrite l m (o.dst.pixelAddr k) o.color1

/-- The body of every command writes no more than its region of the destination (R70). -/
theorem regionBody_writesOwnRegion (i : Instr) (l : Launch) (o : OperandRegs) :
    WritesOwnRegion l.byteOrder o.dst (regionBody i l o) := by
  have untouched : WritesOwnRegion l.byteOrder o.dst (fun _ _ m => .ok m) :=
    ⟨fun P _ _ m m' _ _ h start => Except.ok.inj h ▸ start, fun _ _ _ _ h => by cases h⟩
  cases i with
  | blend => exact untouched
  | blendl alpha => exact untouched
  | blendbuf sBit eBit => exact eachPixel_writesOwnRegion (blendbufPixel_writesOwnPixel l o)
  | grad sBit eBit => exact gradBody_writesOwnRegion l o
  | blendc sBit eBit => exact eachPixel_writesOwnRegion (memRewrite_writesOwnPixel _)
  | opac sBit eBit scale => exact eachPixel_writesOwnRegion (memRewrite_writesOwnPixel _)
  | opacm sBit eBit => exact eachPixel_writesOwnRegion (memCombine_writesOwnPixel _ _)
  | bright sBit eBit scale => exact eachPixel_writesOwnRegion (memRewrite_writesOwnPixel _)
  | brightm sBit eBit => exact eachPixel_writesOwnRegion (memCombine_writesOwnPixel _ _)
  | fill sBit eBit => exact eachPixel_writesOwnRegion (memWrite_writesOwnPixel _)

/-- BLENDC is a region command but for a transparent color, which completes it with no access (R176). -/
theorem execBlendc_shape (sBit eBit : Bool) (o : OperandRegs) :
    (∀ s : State, s.latch.ops = o → execBlendc sBit eBit s = .next (s.complete .ok)) ∨
    (∀ s : State, s.latch.ops = o →
      execBlendc sBit eBit s = runRegion false sBit eBit (eachPixel (blendcPixel s.launch o)) s) := by
  cases checks : argumentChecks false o with
  | some e =>
    right
    rintro s rfl
    simp only [execBlendc, runRegion, prologue, checks]
  | none =>
    by_cases transparent : alphaOf o.color1 = 0#8
    · left
      rintro s rfl
      simp only [execBlendc, checks, if_pos transparent]
    · right
      rintro s rfl
      simp only [execBlendc, checks, if_neg transparent]

/-- The three shapes of a command: one value for RESULT, no access at all, or a region command. Which it is, and the value,
depend on the latched operands alone (R40). -/
theorem exec_shape (i : Instr) (o : OperandRegs) :
    (usesDst i = false ∧ ∃ v, ∀ s : State, s.latch.ops = o → exec i s = .next ((s.withResult v).complete .ok)) ∨
    (usesDst i = true ∧ ∀ s : State, s.latch.ops = o → exec i s = .next (s.complete .ok)) ∨
    (usesDst i = true ∧ ∀ s : State, s.latch.ops = o →
      exec i s = runRegion (usesSrc i) (sBitOf i) (eBitOf i) (regionBody i s.launch o) s) := by
  cases i with
  | blend => exact .inl ⟨rfl, blendPair o.color1 o.color2, fun s h => h ▸ rfl⟩
  | blendl alpha => exact .inl ⟨rfl, blendLinear o.color1 o.color2 alpha, fun s h => h ▸ rfl⟩
  | blendc sBit eBit =>
    obtain early | region := execBlendc_shape sBit eBit o
    · exact .inr (.inl ⟨rfl, early⟩)
    · exact .inr (.inr ⟨rfl, region⟩)
  | _ => exact .inr (.inr ⟨rfl, fun s h => h ▸ rfl⟩)

/-- A region that the prologue passes on is that of a valid destination (R170, R232). -/
theorem prologue_region {readsSrc sBit eBit : Bool} {o : OperandRegs} {first last : Nat}
    (h : prologue readsSrc sBit eBit o = .region first last) :
    o.dst.valid = true ∧
      resolve (effectiveWidth readsSrc o) (rawStart sBit o) (rawEnd eBit o) = some (first, last) := by
  obtain ⟨e, -, ends⟩ | ⟨-, -, ends⟩ | ⟨_, _, -, -, -, ends⟩ | ⟨first', last', checks, region, -, ends⟩ :=
    prologue_cases readsSrc sBit eBit o
  all_goals rw [ends] at h; cases h
  exact ⟨(argumentChecks_none.1 checks).1, region⟩

theorem prologue_overlap {readsSrc sBit eBit : Bool} {o : OperandRegs}
    (h : prologue readsSrc sBit eBit o = .overlap) : readsSrc = true := by
  obtain ⟨e, -, ends⟩ | ⟨-, -, ends⟩ | ⟨_, _, -, -, ⟨reads, -⟩, ends⟩ | ⟨_, _, -, -, -, ends⟩ :=
    prologue_cases readsSrc sBit eBit o
  all_goals rw [ends] at h; cases h
  exact reads

/-- Everything a command can answer (R43, R69, R79): it completes having changed RESULT or memory, or it is a partial
overlap, or it is stuck. -/
theorem exec_cases (i : Instr) (s : State) :
    (usesDst i = false ∧ ∃ v, exec i s = .next ((s.withResult v).complete .ok)) ∨
    (usesDst i = true ∧ ∃ m e, exec i s = .next ((s.withMem m).complete e)) ∨
    (usesSrc i = true ∧ exec i s = .fault (.undefined .partialOverlap)) ∨
    (usesDst i = true ∧ exec i s = .fault .stuck) := by
  obtain ⟨single, v, run⟩ | ⟨dst, run⟩ | ⟨dst, run⟩ := exec_shape i s.latch.ops
  · exact .inl ⟨single, v, run s rfl⟩
  · exact .inr (.inl ⟨dst, s.mem, .ok, run s rfl⟩)
  · rw [run s rfl]
    obtain ⟨e, -, ends⟩ | ⟨-, ends⟩ | ⟨overlaps, ends⟩ | ⟨first, last, r, -, stop, ends⟩ | ⟨first, last, m, -, -, ends⟩ :=
      runRegion_cases (usesSrc i) (sBitOf i) (eBitOf i) (regionBody i s.launch s.latch.ops) s
    · exact .inr (.inl ⟨dst, s.mem, e, ends⟩)
    · exact .inr (.inl ⟨dst, s.mem, .ok, ends⟩)
    · exact .inr (.inr (.inl ⟨prologue_overlap overlaps, ends⟩))
    · obtain rfl := (regionBody_writesOwnRegion i s.launch s.latch.ops).stops first last s.mem r stop
      exact .inr (.inr (.inr ⟨dst, ends⟩))
    · exact .inr (.inl ⟨dst, m, .ok, ends⟩)

/-- A command that completes keeps of memory whatever every write of a pixel of its resolved region keeps (R70). -/
theorem exec_keeps_mem {i : Instr} {s t : State} (P : Memory → Prop)
    (keep : ∀ first last k v a, s.latch.ops.dst.valid = true → commandRegion i s.latch.ops = some (first, last) →
      first ≤ k → k ≤ last → P a → P (a.writeWord s.launch.byteOrder (s.latch.ops.dst.pixelAddr k) v))
    (h : exec i s = .next t) (start : P s.mem) : P t.mem := by
  obtain ⟨-, v, run⟩ | ⟨-, run⟩ | ⟨-, run⟩ := exec_shape i s.latch.ops
  all_goals rw [run s rfl] at h
  · cases h
    exact start
  · cases h
    exact start
  · obtain ⟨e, -, ends⟩ | ⟨-, ends⟩ | ⟨-, ends⟩ | ⟨_, _, r, -, -, ends⟩ | ⟨first, last, m, passed, body, ends⟩ :=
      runRegion_cases (usesSrc i) (sBitOf i) (eBitOf i) (regionBody i s.launch s.latch.ops) s
    all_goals rw [ends] at h; cases h
    · exact start
    · exact start
    · obtain ⟨valid, region⟩ := prologue_region passed
      exact (regionBody_writesOwnRegion i s.launch s.latch.ops).keeps P first last s.mem m (resolve_bounds region).1
        (fun k v a => keep first last k v a valid region) body start

/-- A pixel of a command's region lies below the destination's count (R126, R170). -/
theorem commandRegion_below {i : Instr} {o : OperandRegs} {first last k : Nat}
    (region : commandRegion i o = some (first, last)) (high : k ≤ last) : k < o.dst.count := by
  have := (resolve_bounds region).2
  have := effectiveWidth_le (usesSrc i) o
  omega

theorem exec_keeps_canonical {i : Instr} {s t : State} (h : exec i s = .next t) (canonical : s.mem.wf = true) :
    t.mem.wf = true :=
  exec_keeps_mem (fun a => a.wf = true)
    (fun _ _ _ v a valid region _ high wf =>
      Memory.wf_writeWord _ a _ v (Descriptor.pixelAddr_lt valid (commandRegion_below region high)) wf)
    h canonical

/-! ### The statements about commands -/

/-- Settles O16: the four answers of a command (R43, R230, R238). -/
theorem everyCommandCompletesOrStopsByName : Obligations.EveryCommandCompletesOrStopsByName := by
  intro i s
  obtain ⟨-, v, run⟩ | ⟨-, m, e, run⟩ | ⟨reads, run⟩ | ⟨writes, run⟩ := exec_cases i s
  · exact .inl ⟨_, run, rfl⟩
  · exact .inl ⟨_, run, rfl⟩
  · exact .inr (.inl ⟨run, reads⟩)
  · exact .inr (.inr ⟨run, writes⟩)

/-- A region command does the same to memory and STATUS from states that agree on the latched operands and memory. -/
theorem runRegion_congr {readsSrc sBit eBit : Bool} {body : Nat → Nat → Memory → Except Fault Memory} {r s t : State}
    (ops : r.latch.ops = s.latch.ops) (mem : r.mem = s.mem) (h : runRegion readsSrc sBit eBit body s = .next t) :
    ∃ m e, t = (s.withMem m).complete e ∧ runRegion readsSrc sBit eBit body r = .next ((r.withMem m).complete e) := by
  obtain ⟨e, passed, ends⟩ | ⟨passed, ends⟩ | ⟨-, ends⟩ | ⟨_, _, _, -, -, ends⟩ | ⟨first, last, m, passed, run, ends⟩ :=
    runRegion_cases readsSrc sBit eBit body s
  all_goals rw [ends] at h; cases h
  · exact ⟨s.mem, e, rfl, by simp only [runRegion, ops, passed, raiseError, ← mem]; rfl⟩
  · exact ⟨s.mem, .ok, rfl, by simp only [runRegion, ops, passed, ← mem]; rfl⟩
  · exact ⟨m, .ok, rfl, by simp only [runRegion, ops, passed, mem, run]⟩

/-- Settles O15: which shape a command has, and its value for RESULT, depend on the latched operands alone; a region command
reads memory besides (R40). -/
theorem executionReadsOnlyLatchAndMemory : Obligations.ExecutionReadsOnlyLatchAndMemory := by
  intro i s r t ops mem launch result ign h
  have sameStatus (e : ErrCode) : r.status.completed e = s.status.completed e := by
    simp only [Status.completed, ign]
  obtain ⟨-, v, run⟩ | ⟨-, run⟩ | ⟨-, run⟩ := exec_shape i s.latch.ops
  all_goals rw [run s rfl] at h; rw [run r ops]
  · cases h
    exact ⟨_, rfl, mem, rfl, sameStatus .ok⟩
  · cases h
    exact ⟨_, rfl, mem, result, sameStatus .ok⟩
  · obtain ⟨m, e, rfl, run'⟩ := runRegion_congr ops mem h
    exact ⟨(r.withMem m).complete e, launch ▸ run', rfl, result, sameStatus e⟩

/-- The commands without a destination are the two single-pixel forms (R232). -/
theorem usesDst_false {i : Instr} (h : usesDst i = false) : i = .blend ∨ ∃ w, i = .blendl w := by
  cases i with
  | blend => exact .inl rfl
  | blendl alpha => exact .inr ⟨alpha, rfl⟩
  | _ => cases h

/-- Settles O18: of the answers of a command only that of a single-pixel form touches RESULT; an error does not, and the
window ignores a write at 0x08 (R29). -/
theorem onlySinglePixelBlendsWriteResult : Obligations.OnlySinglePixelBlendsWriteResult := by
  refine ⟨fun i s t h changed => ?_, fun s t illegal h => ?_, fun v s => hostTurn_writeReg_slot .RESULT v s, rfl⟩
  · obtain ⟨single, v, rfl⟩ | ⟨-, m, e, rfl⟩ := exec_frame h
    · exact ⟨usesDst_false single, rfl⟩
    · exact absurd rfl changed
  · simp only [executeLatched, illegal, raiseError] at h
    cases h
    rfl

/-! ### The invariant -/

/-- The invariant in words: canonical memory, the phases (R26), ERR (R28), CMD while BUSY (R24), the launch (R10). -/
theorem State.inv_iff (s : State) :
    s.inv = true ↔ s.mem.wf = true ∧ (s.status.busy = true → s.status.done = false) ∧
      (s.status.done = false → s.status.err = .ok) ∧ (s.status.busy = true → s.latch.cmd = s.cmd) ∧
      s.launch.wf = true := by
  unfold State.inv State.phaseOk State.errOk State.latchOk
  cases s.status.busy <;> cases s.status.done <;> simp [and_assoc]

@[simp] theorem State.inv_withScript (l : List Move) (s : State) : (s.withScript l).inv = s.inv := rfl
@[simp] theorem State.inv_receive (v : Word) (s : State) : (s.receive v).inv = s.inv := rfl
@[simp] theorem State.inv_withRegs (o : OperandRegs) (s : State) : (s.withRegs o).inv = s.inv := rfl
/-- IGN is in no clause of the invariant. -/
theorem State.inv_withIgn (b : Bool) (s : State) : State.inv { s with status := { s.status with ign := b } } = s.inv := rfl
@[simp] theorem State.inv_withResult (v : Word) (s : State) : (s.withResult v).inv = s.inv := rfl

section
variable {s : State} (inv : s.inv = true)
include inv

theorem State.inv_mem : s.mem.wf = true := (s.inv_iff.1 inv).1

theorem State.inv_withMem {m : Memory} (canonical : m.wf = true) : (s.withMem m).inv = true := by
  obtain ⟨-, rest⟩ := s.inv_iff.1 inv
  exact (State.inv_iff _).2 ⟨canonical, rest⟩

/-- Completion ends the BUSY phase, where ERR may be any code (R26, R43). -/
theorem State.inv_complete (e : ErrCode) : (s.complete e).inv = true := by
  obtain ⟨canonical, -, -, -, launch⟩ := s.inv_iff.1 inv
  refine (State.inv_iff _).2 ⟨canonical, ?_, ?_, ?_, launch⟩ <;> simp

/-- Acceptance clears DONE and ERR and latches the word CMD takes (R24). -/
theorem State.inv_accept (v : Word) : (s.accept v).inv = true := by
  obtain ⟨canonical, -, -, -, launch⟩ := s.inv_iff.1 inv
  refine (State.inv_iff _).2 ⟨canonical, ?_, ?_, ?_, launch⟩ <;> simp

/-- The reset signal leaves an IDLE block with STATUS 0, whatever its latch holds (R260). -/
theorem State.inv_resetRegisters (junk : Latch) : (s.resetRegisters junk).inv = true := by
  obtain ⟨canonical, -, -, -, launch⟩ := s.inv_iff.1 inv
  refine (State.inv_iff _).2 ⟨canonical, ?_, ?_, ?_, launch⟩ <;> simp

/-- A host write of a slot moves IGN alone, accepts a command, or changes operand registers (R24, R27, R29, R38). -/
theorem writeSlot_keeps_inv (r : Reg) (v : Word) : (writeSlot r v s).inv = true := by
  obtain ⟨-, -, w⟩ | ⟨-, -, w⟩ | ⟨-, w⟩ | ⟨-, w⟩ | ⟨o, w⟩ := writeSlot_cases r v s
  all_goals rw [w]
  · exact (State.inv_withIgn true s).trans inv
  · exact State.inv_accept inv v
  · exact (State.inv_withIgn _ s).trans inv
  · exact inv
  · exact (State.inv_withRegs o s).trans inv

theorem writeWindow_keeps_inv (off : Nat) (v : Word) : (writeWindow off v s).inv = true := by
  obtain ⟨-, w⟩ | ⟨r, -, w⟩ := writeWindow_cases off v s
  all_goals rw [w]
  · exact inv
  · exact writeSlot_keeps_inv inv r v

theorem exec_keeps_inv {i : Instr} {t : State} (h : exec i s = .next t) : t.inv = true := by
  have canonical := exec_keeps_canonical h (State.inv_mem inv)
  obtain ⟨-, v, rfl⟩ | ⟨-, m, e, rfl⟩ := exec_frame h
  · exact State.inv_complete ((State.inv_withResult v s).trans inv) .ok
  · exact State.inv_complete (State.inv_withMem inv canonical) e

theorem blockTurn_keeps_inv {t : State} (h : blockTurn s = .next t) : t.inv = true := by
  obtain ⟨-, rfl⟩ | ⟨-, -, rfl⟩ | ⟨-, i, -, run⟩ := blockTurn_cases h
  · exact inv
  · exact State.inv_complete inv .illegal
  · exact exec_keeps_inv inv run

end

/-- A reset that discards a command leaves memory canonical, whatever it draws (R261). -/
theorem discardedMemory_canonical (draws : List PixelDraw) {s : State} (canonical : s.mem.wf = true) :
    (discardedMemory draws s).wf = true := by
  unfold discardedMemory
  split
  · exact drawPixels_wf canonical
  · exact drawPixels_wf canonical
  all_goals exact canonical

/-- A host word access that is not refused lies on a pixel word (R61). -/
theorem hostWordRefusal_none_aligned {k : AccessKind} {s : State} {a : Nat} (h : hostWordRefusal k s a = none) :
    a % 4 = 0 := by
  by_contra odd
  rw [hostWordRefusal, if_pos odd] at h
  cases h

/-- The four bytes of an aligned word lie inside pixel memory (R60). -/
theorem aligned_word_inside {addr : Word} (aligned : addr.toNat % 4 = 0) : addr.toNat + 3 < Config.spaceSize := by
  have := addr.isLt
  unfold Config.spaceSize
  omega

/-- Every move of the host keeps the invariant: a store lies inside pixel memory (R60), a poll and a read change no state of
the block (R23), and a reset ends in STATUS 0 (R260). -/
theorem hostTurn_keeps_inv {m : HostMove} {s t : State} (inv : s.inv = true) (h : hostTurn m s = .next t) :
    t.inv = true := by
  have canonical := State.inv_mem inv
  obtain ⟨v, rfl⟩ | ⟨_, _, v, off, -, -, rfl⟩ | ⟨addr, v, -, allowed, rfl⟩ | ⟨addr, v, -, -, rfl⟩ | ⟨-, -, rfl⟩ |
    ⟨draws, junk, -, rfl⟩ := hostTurn_cases h
  · exact (State.inv_receive v s).trans inv
  · exact writeWindow_keeps_inv inv off v
  · exact State.inv_withMem inv
      (Memory.wf_writeWord _ _ _ v (aligned_word_inside (hostWordRefusal_none_aligned allowed)) canonical)
  · exact State.inv_withMem inv (Memory.wf_write _ _ v addr.isLt canonical)
  · rwa [State.inv_withScript, State.inv_receive]
  · refine State.inv_resetRegisters (State.inv_withMem inv ?_) junk
    split
    · exact discardedMemory_canonical draws canonical
    · exact canonical

/-- Settles O12: the turn of the block and every move of the host keep the invariant (R24, R26, R28, R60, R10). -/
theorem stepKeepsTheInvariant : Obligations.StepKeepsTheInvariant := by
  intro s t inv h
  obtain ⟨rest, -, turn⟩ | ⟨m, rest, -, turn⟩ := step_cases h
  · exact blockTurn_keeps_inv ((State.inv_withScript rest s).trans inv) turn
  · exact hostTurn_keeps_inv ((State.inv_withScript rest s).trans inv) turn

/-- Settles O7: STATUS is 0 after reset, the empty memory is canonical, and `Launch.default` is well formed (R26, R44). -/
theorem resetMeetsTheInvariant : Obligations.ResetMeetsTheInvariant :=
  State.reset.inv_iff.2 ⟨rfl, fun _ => rfl, fun _ => rfl, fun _ => rfl, by decide⟩

end Sys2Proof.Machine

/-! SUPPORT. Pixel memory and who may touch it (20_memory.md): what the host may do while BUSY and how its pixel words lie in
memory, the bytes a command leaves alone, the accesses that stop a command, and the region its word names. -/

namespace Sys2Proof.Machine

/-! ### The host's moves while BUSY -/

/-- A write of the register window leaves the accepted command alone while BUSY: CMD drops it, and no other slot reaches CMD,
the latch or BUSY (R24, R38, R78). -/
theorem writeWindow_keeps_accepted (off : Nat) (v : Word) {s : State} (busy : s.status.busy = true) :
    (writeWindow off v s).latch = s.latch ∧ (writeWindow off v s).cmd = s.cmd ∧
      (writeWindow off v s).status.busy = true := by
  obtain ⟨-, w⟩ | ⟨r, -, w⟩ := writeWindow_cases off v s
  · rw [w]
    exact ⟨rfl, rfl, busy⟩
  · rw [w]
    obtain ⟨-, -, slot⟩ | ⟨-, idle, -⟩ | ⟨-, slot⟩ | ⟨-, slot⟩ | ⟨o, slot⟩ := writeSlot_cases r v s
    · exact slot ▸ ⟨rfl, rfl, busy⟩
    · simp [busy] at idle
    · exact slot ▸ ⟨rfl, rfl, busy⟩
    · exact slot.symm ▸ ⟨rfl, rfl, busy⟩
    · exact slot ▸ ⟨rfl, rfl, busy⟩

/-- Settles O14: of the moves but reset only a window write could reach the latch, CMD or BUSY, and while BUSY it does not
(R78, R270, R271). -/
theorem acceptedCommandCannotBeChanged : Obligations.AcceptedCommandCannotBeChanged := by
  intro m s t noReset busy h
  obtain ⟨v, rfl⟩ | ⟨_, _, v, off, -, -, rfl⟩ | ⟨_, v, -, -, rfl⟩ | ⟨_, v, -, -, rfl⟩ | ⟨-, -, rfl⟩ |
    ⟨draws, junk, reset, -⟩ := hostTurn_cases h
  case inr.inl => exact writeWindow_keeps_accepted off v busy
  case inr.inr.inr.inr.inr => exact absurd reset (noReset draws junk)
  all_goals exact ⟨rfl, rfl, busy⟩

/-- A byte of a descriptor that the running command checks is handed over (R76). -/
theorem handedOver_of_checked {i : Instr} {s : State} {a : Nat} (busy : s.status.busy = true)
    (legal : decode s.latch.cmd = .ok i)
    (checked : (usesDst i = true ∧ s.latch.ops.dst.covers a = true) ∨
      (usesSrc i = true ∧ s.latch.ops.src.covers a = true)) :
    handedOver s a = true := by
  simpa [handedOver, busy, legal] using checked

theorem Descriptor.covers_iff (d : Descriptor) (a : Nat) :
    d.covers a = true ↔ d.base.toNat ≤ a ∧ a < d.base.toNat + d.len.toNat := by
  simp [Descriptor.covers]

/-- A word one of whose four bytes is handed over is handed over (R76). -/
theorem handedOverWord_of_byte {s : State} {a b : Nat} (low : a ≤ b) (high : b < a + 4) (duty : handedOver s b = true) :
    handedOverWord s a = true := by
  obtain rfl | rfl | rfl | rfl : b = a ∨ b = a + 1 ∨ b = a + 2 ∨ b = a + 3 := by omega
  all_goals simp [handedOverWord, duty]

theorem hostByteRefusal_duty {s : State} {a : Nat} (k : AccessKind) (duty : handedOver s a = true) :
    hostByteRefusal k s a = some .hostDuty := by
  rw [hostByteRefusal, if_pos duty]

theorem hostWordRefusal_duty {s : State} {a : Nat} (k : AccessKind) (aligned : a % 4 = 0)
    (duty : handedOverWord s a = true) : hostWordRefusal k s a = some .hostDuty := by
  rw [hostWordRefusal, if_neg (not_not.2 aligned), if_pos duty]

/-- Settles O60: the byte is handed over, and with it each word it lies in, whatever `Mem` admits (R76, R241). -/
theorem handedOverBytesHaveNoHostMove : Obligations.HandedOverBytesHaveNoHostMove := by
  intro i s a busy legal inside
  have duty : handedOver s a = true :=
    handedOver_of_checked busy legal (by simp only [Descriptor.covers_iff]; exact inside)
  refine ⟨?_, fun addr v aligned low high => ?_⟩
  · rintro addr v rfl
    simp only [hostTurn, hostLoadByte, hostStoreByte, hostByteRefusal_duty _ duty, and_self]
  · have word := handedOverWord_of_byte low high duty
    simp only [hostTurn, hostLoadPixel, hostStorePixel, hostWordRefusal_duty _ aligned word, and_self]

/-! ### The host's pixel words -/

/-- An aligned pixel word that `Mem` admits and no running command names is open to the host (R61, R69, R76). -/
theorem hostWordRefusal_none {k : AccessKind} {s : State} {a : Nat} (aligned : a % 4 = 0)
    (free : handedOverWord s a = false) (admitted : admits s.launch k a = true) : hostWordRefusal k s a = none := by
  simp [hostWordRefusal, aligned, free, admitted]

/-- Which bytes are handed over does not depend on what they hold (R76). -/
@[simp] theorem handedOverWord_withMem (m : Memory) (s : State) (a : Nat) :
    handedOverWord (s.withMem m) a = handedOverWord s a := rfl

/-- LE puts the channels of a pixel in memory from B up (R64). -/
theorem pixelByte_le (v : Word) :
    pixelByte .le v 0 = (unpack v).b ∧ pixelByte .le v 1 = (unpack v).g ∧ pixelByte .le v 2 = (unpack v).r ∧
      pixelByte .le v 3 = (unpack v).a := ⟨rfl, rfl, rfl, rfl⟩

/-- BE puts the channels of a pixel in memory from A up (R64). -/
theorem pixelByte_be (v : Word) :
    pixelByte .be v 0 = (unpack v).a ∧ pixelByte .be v 1 = (unpack v).r ∧ pixelByte .be v 2 = (unpack v).g ∧
      pixelByte .be v 3 = (unpack v).b := ⟨rfl, rfl, rfl, rfl⟩

/-- Settles O59: the store writes the four bytes of the pixel in the byte order, and the load joins them again (R64, R66,
R67). -/
theorem pixelBytesFollowTheByteOrder : Obligations.PixelBytesFollowTheByteOrder := by
  intro addr v s aligned free admitted
  have byte (k : Nat) (low : k < 4) := Memory.read_writeWord_byte s.launch.byteOrder s.mem addr.toNat k v low
  have stored := hostWordRefusal_none aligned free admitted
  refine ⟨s.withMem (s.mem.writeWord s.launch.byteOrder addr.toNat v), ?_, rfl, fun le => ?_, fun be => ?_,
    fun a outside => Memory.read_writeWord_other _ _ _ a v outside, fun readable expected => ?_⟩
  · simp only [hostTurn, hostStorePixel, stored]
  · rw [le] at byte
    obtain ⟨b, g, r, a⟩ := pixelByte_le v
    rw [State.withMem_mem, le]
    exact ⟨b ▸ byte 0 (by omega), g ▸ byte 1 (by omega), r ▸ byte 2 (by omega), a ▸ byte 3 (by omega)⟩
  · rw [be] at byte
    obtain ⟨a, r, g, b⟩ := pixelByte_be v
    rw [State.withMem_mem, be]
    exact ⟨a ▸ byte 0 (by omega), r ▸ byte 1 (by omega), g ▸ byte 2 (by omega), b ▸ byte 3 (by omega)⟩
  · have loaded := hostWordRefusal_none (s := s.withMem (s.mem.writeWord s.launch.byteOrder addr.toNat v))
      aligned free readable
    simp only [hostTurn, hostLoadPixel, loaded, State.withMem_mem, State.withMem_launch, Memory.readWord_writeWord_self]
    rfl

/-! ### The bytes a command leaves alone -/

/-- A region command that ends in an error has made no access (R170, R233). -/
theorem runRegion_error_keeps_mem {readsSrc sBit eBit : Bool} {body : Nat → Nat → Memory → Except Fault Memory}
    {s t : State} (h : runRegion readsSrc sBit eBit body s = .next t) (failed : t.status.err ≠ .ok) : t.mem = s.mem := by
  obtain ⟨e, -, ends⟩ | ⟨-, ends⟩ | ⟨-, ends⟩ | ⟨_, _, r, -, -, ends⟩ | ⟨_, _, m, -, -, ends⟩ :=
    runRegion_cases readsSrc sBit eBit body s
  all_goals rw [ends] at h; cases h
  · rfl
  · rfl
  · exact absurd rfl failed

/-- A command that ends in an error has made no access (R230, R233). -/
theorem exec_error_keeps_mem {i : Instr} {s t : State} (h : exec i s = .next t) (failed : t.status.err ≠ .ok) :
    t.mem = s.mem := by
  obtain ⟨-, v, run⟩ | ⟨-, run⟩ | ⟨-, run⟩ := exec_shape i s.latch.ops
  all_goals rw [run s rfl] at h
  · cases h
    rfl
  · cases h
    rfl
  · exact runRegion_error_keeps_mem h failed

/-- Settles O17: an error or a single-pixel form makes no access, and any other command keeps what every write of a pixel of
its region keeps (R70, R71, R230). -/
theorem commandsWriteOnlyTheirRegion : Obligations.CommandsWriteOnlyTheirRegion := by
  intro i s t h
  refine ⟨exec_error_keeps_mem h, fun single => ?_, fun none => ?_, fun first last region a outside => ?_⟩
  · obtain ⟨-, v, rfl⟩ | ⟨dst, -⟩ := exec_frame h
    · rfl
    · rw [single] at dst
      cases dst
  · exact exec_keeps_mem (fun m => m = s.mem) (fun _ _ _ _ _ _ some => by simp [none] at some) h rfl
  · refine exec_keeps_mem (fun m => m.read a = s.mem.read a) (fun first' last' k v m _ region' low high same => ?_) h rfl
    obtain ⟨rfl, rfl⟩ : first = first' ∧ last = last' := by simpa [region] using region'
    rw [Memory.read_writeWord_other _ m _ a v (by unfold Descriptor.outside Descriptor.pixelAddr at *; omega), same]

/-! ### The commands that stop -/

/-- A command with a destination is a region command, BLENDC with the exception of a transparent color (R170, R176). -/
theorem exec_eq_runRegion {i : Instr} {s : State} (writes : usesDst i = true)
    (visible : ∀ sBit eBit, i = .blendc sBit eBit → alphaOf s.latch.ops.color1 ≠ 0#8) :
    exec i s = runRegion (usesSrc i) (sBitOf i) (eBitOf i) (regionBody i s.launch s.latch.ops) s := by
  cases i with
  | blend => cases writes
  | blendl alpha => cases writes
  | blendc sBit eBit =>
    simp only [exec, execBlendc, if_neg (visible sBit eBit rfl)]
    cases checks : argumentChecks false s.latch.ops with
    | some e => simp only [runRegion, prologue, usesSrc, checks]
    | none => rfl
  | _ => rfl

/-- A region command over overlapping ranges is the fault of R79. -/
theorem runRegion_of_overlap {sBit eBit : Bool} {body : Nat → Nat → Memory → Except Fault Memory} {s : State}
    {first last : Nat} (checks : argumentChecks true s.latch.ops = none)
    (region : resolve (effectiveWidth true s.latch.ops) (rawStart sBit s.latch.ops) (rawEnd eBit s.latch.ops) =
      some (first, last))
    (overlap : partialOverlap s.latch.ops first last = true) :
    runRegion true sBit eBit body s = .fault (.undefined .partialOverlap) := by
  simp only [runRegion, prologue, checks, region, overlap, and_self, if_true]

/-- A region command whose region is resolved stops where its body does (R69, R170). -/
theorem runRegion_of_stop {readsSrc sBit eBit : Bool} {body : Nat → Nat → Memory → Except Fault Memory} {s : State}
    {first last : Nat} {r : Fault} (checks : argumentChecks readsSrc s.latch.ops = none)
    (region : resolve (effectiveWidth readsSrc s.latch.ops) (rawStart sBit s.latch.ops) (rawEnd eBit s.latch.ops) =
      some (first, last))
    (apart : ¬(readsSrc = true ∧ partialOverlap s.latch.ops first last = true))
    (stop : body first last s.mem = .error r) : runRegion readsSrc sBit eBit body s = .fault r := by
  simp only [runRegion, prologue, checks, region, if_neg apart, stop]

/-- The commands that read a source are BLENDBUF, OPACM and BRIGHTM, which write a destination as well and are not BLENDC
(R170, R232). -/
theorem usesDst_of_usesSrc {i : Instr} (reads : usesSrc i = true) :
    usesDst i = true ∧ ∀ sBit eBit, i ≠ .blendc sBit eBit := by
  cases i with
  | blendbuf sBit eBit => exact ⟨rfl, nofun⟩
  | opacm sBit eBit => exact ⟨rfl, nofun⟩
  | brightm sBit eBit => exact ⟨rfl, nofun⟩
  | _ => cases reads

/-- Settles O47: the byte a puts the start of each range before the end of the other, which is the overlap test (R79). -/
theorem partialOverlapIsUndefined : Obligations.PartialOverlapIsUndefined := by
  intro i s first last a reads dstValid srcValid region bases srcLow srcHigh dstLow dstHigh
  have overlap : partialOverlap s.latch.ops first last = true :=
    (partialOverlap_iff _ _ _).2 ⟨bases, by omega, by omega⟩
  have checks : argumentChecks true s.latch.ops = none := argumentChecks_none.2 ⟨dstValid, fun _ => srcValid⟩
  obtain ⟨writes, notBlendc⟩ := usesDst_of_usesSrc reads
  rw [commandRegion, reads] at region
  rw [exec_eq_runRegion writes fun sBit eBit e => absurd e (notBlendc sBit eBit), reads]
  exact runRegion_of_overlap checks region overlap

/-- A loop that completes has run each of its pixels, from a memory that has what every earlier pixel keeps. -/
theorem forPixels_reaches {f : Nat → Memory → Except Fault Memory} (P : Memory → Prop) {n i k : Nat} {m m' : Memory}
    (h : forPixels f n i m = .ok m') (low : i ≤ k) (high : k < i + n)
    (keep : ∀ j a b, i ≤ j → j < k → f j a = .ok b → P a → P b) (start : P m) : ∃ a b, P a ∧ f k a = .ok b := by
  induction n generalizing i m with
  | zero => omega
  | succ n ih =>
    simp only [forPixels] at h
    split at h
    · cases h
    · next b run =>
      by_cases here : i = k
      · exact ⟨m, b, start, here ▸ run⟩
      · exact ih h (by omega) (by omega) (fun j a c after => keep j a c (by omega))
          (keep i m b (by omega) (by omega) run start)

/-- A region that completes has run each of its pixels, from a memory that has what every earlier pixel keeps (R74). -/
theorem eachPixel_reaches {f : Nat → Memory → Except Fault Memory} (P : Memory → Prop) {first last k : Nat}
    {m m' : Memory} (h : eachPixel f first last m = .ok m') (low : first ≤ k) (high : k ≤ last)
    (keep : ∀ j a b, first ≤ j → j < k → f j a = .ok b → P a → P b) (start : P m) : ∃ a b, P a ∧ f k a = .ok b :=
  forPixels_reaches P h low (by omega) keep start

/-- A region that completes has run each of its pixels. -/
theorem eachPixel_runs {f : Nat → Memory → Except Fault Memory} {first last k : Nat} {m m' : Memory}
    (h : eachPixel f first last m = .ok m') (low : first ≤ k) (high : k ≤ last) : ∃ a b, f k a = .ok b := by
  obtain ⟨a, b, -, run⟩ := eachPixel_reaches (fun _ => True) h low high (fun _ _ _ _ _ _ _ => trivial) trivial
  exact ⟨a, b, run⟩

section
variable {l : Launch} {addr : Nat → Nat} {first last k : Nat} {m m' : Memory}

theorem eachPixel_memWrite_admitted {v : Nat → Word}
    (h : eachPixel (fun i m => memWrite l m (addr i) (v i)) first last m = .ok m') (low : first ≤ k) (high : k ≤ last) :
    admits l .write (addr k) = true := by
  obtain ⟨a, b, run⟩ := eachPixel_runs h low high
  exact (memWrite_ok.1 run).1

theorem eachPixel_memRewrite_admitted {f : Word → Word}
    (h : eachPixel (fun i m => memRewrite l m (addr i) f) first last m = .ok m') (low : first ≤ k) (high : k ≤ last) :
    admits l .read (addr k) = true ∧ admits l .write (addr k) = true := by
  obtain ⟨a, b, run⟩ := eachPixel_runs h low high
  obtain ⟨readable, writable, -⟩ := memRewrite_ok.1 run
  exact ⟨readable, writable⟩

theorem eachPixel_memCombine_admitted {other : Nat → Nat} {f : Word → Word → Word}
    (h : eachPixel (fun i m => memCombine l m (addr i) (other i) f) first last m = .ok m') (low : first ≤ k)
    (high : k ≤ last) :
    admits l .read (addr k) = true ∧ admits l .read (other k) = true ∧ admits l .write (addr k) = true := by
  obtain ⟨a, b, run⟩ := eachPixel_runs h low high
  obtain ⟨readable, otherReadable, writable, -⟩ := memCombine_ok.1 run
  exact ⟨readable, otherReadable, writable⟩

end

/-- A GRAD that completes was admitted to write each pixel of its region (R174). -/
theorem gradBody_admitted {l : Launch} {o : OperandRegs} {first last k : Nat} {m m' : Memory}
    (h : gradBody l o first last m = .ok m') (low : first ≤ k) (high : k ≤ last) :
    admits l .write (o.dst.pixelAddr k) = true := by
  unfold gradBody at h
  split at h
  · cases h
  · next m1 write1 =>
    by_cases isFirst : k = first
    · exact isFirst ▸ (memWrite_ok.1 write1).1
    · rw [if_neg (by omega)] at h
      split at h
      · cases h
      · next m2 write2 =>
        by_cases isLast : k = last
        · exact isLast ▸ (memWrite_ok.1 write2).1
        · rw [if_neg (by omega)] at h
          exact eachPixel_memWrite_admitted (addr := o.dst.pixelAddr) h (by omega) (by omega)

/-- A pixel of BLENDBUF that completes was admitted the accesses that the alpha of its source pixel asks for (R171). -/
theorem blendbufPixel_admitted {l : Launch} {o : OperandRegs} {k : Nat} {m m' : Memory}
    (h : blendbufPixel l o k m = .ok m') :
    admits l .read (o.src.pixelAddr k) = true ∧
      (alphaOf (m.readWord l.byteOrder (o.src.pixelAddr k)) ≠ 0#8 →
        admits l .write (o.dst.pixelAddr k) = true ∧
          (alphaOf (m.readWord l.byteOrder (o.src.pixelAddr k)) ≠ 255#8 →
            admits l .read (o.dst.pixelAddr k) = true)) := by
  unfold blendbufPixel at h
  split at h
  · cases h
  · next c2 read =>
    obtain ⟨readable, rfl⟩ := memRead_ok.1 read
    refine ⟨readable, fun visible => ?_⟩
    rw [if_neg visible] at h
    split at h
    · next solid => exact ⟨(memWrite_ok.1 h).1, fun notSolid => absurd solid notSolid⟩
    · obtain ⟨readDst, writeDst, -⟩ := memRewrite_ok.1 h
      exact ⟨writeDst, fun _ => readDst⟩

/-- A source that does not overlap partially is read as the command found it: pixel k is apart from each destination pixel
before it (R74, R79). -/
theorem pixelAddr_apart {o : OperandRegs} {first last j k : Nat} (apart : partialOverlap o first last = false)
    (low : first ≤ j) (before : j < k) (high : k ≤ last) :
    o.src.pixelAddr k + 4 ≤ o.dst.pixelAddr j ∨ o.dst.pixelAddr j + 4 ≤ o.src.pixelAddr k := by
  change o.srcBase.toNat + 4 * k + 4 ≤ o.dstBase.toNat + 4 * j ∨ o.dstBase.toNat + 4 * j + 4 ≤ o.srcBase.toNat + 4 * k
  by_cases same : o.srcBase = o.dstBase
  · rw [same]
    omega
  · have disjoint := not_and.1 (mt (partialOverlap_iff o first last).2 (by simp [apart])) same
    omega

/-- A pixel of BLENDBUF leaves the source pixels after it as the command found them (R74, R79). -/
theorem blendbufPixel_keeps_source {l : Launch} {o : OperandRegs} {first last j k : Nat} {m m' : Memory}
    (apart : partialOverlap o first last = false) (low : first ≤ j) (before : j < k) (high : k ≤ last)
    (h : blendbufPixel l o j m = .ok m') :
    m'.readWord l.byteOrder (o.src.pixelAddr k) = m.readWord l.byteOrder (o.src.pixelAddr k) :=
  (blendbufPixel_writesOwnPixel l o).keeps
    (P := fun a => a.readWord l.byteOrder (o.src.pixelAddr k) = m.readWord l.byteOrder (o.src.pixelAddr k))
    (fun v => Memory.readWord_writeWord_other _ m _ _ v (pixelAddr_apart apart low before high)) h rfl

/-- A BLENDBUF that completes was admitted the accesses that the alpha of each source pixel asks for, as the command found
that pixel (R74, R171). -/
theorem blendbuf_admitted {l : Launch} {o : OperandRegs} {first last k : Nat} {m m' : Memory}
    (h : eachPixel (blendbufPixel l o) first last m = .ok m') (low : first ≤ k) (high : k ≤ last)
    (apart : partialOverlap o first last = false) :
    admits l .read (o.src.pixelAddr k) = true ∧
      (alphaOf (m.readWord l.byteOrder (o.src.pixelAddr k)) ≠ 0#8 →
        admits l .write (o.dst.pixelAddr k) = true ∧
          (alphaOf (m.readWord l.byteOrder (o.src.pixelAddr k)) ≠ 255#8 →
            admits l .read (o.dst.pixelAddr k) = true)) := by
  obtain ⟨a, b, found, run⟩ := eachPixel_reaches
    (fun a => a.readWord l.byteOrder (o.src.pixelAddr k) = m.readWord l.byteOrder (o.src.pixelAddr k)) h low high
    (fun j a b low' before run found => (blendbufPixel_keeps_source apart low' before high run).trans found) rfl
  exact found ▸ blendbufPixel_admitted run

/-- A command whose body completes was admitted each access it makes at each pixel of its region (R69, R71). -/
theorem regionBody_admitted {i : Instr} {s : State} {first last k : Nat} {m : Memory}
    (h : regionBody i s.launch s.latch.ops first last s.mem = .ok m) (low : first ≤ k) (high : k ≤ last)
    (apart : usesSrc i = true → partialOverlap s.latch.ops first last = false) : accessDenied i s k = false := by
  cases i with
  | blend => rfl
  | blendl alpha => rfl
  | blendbuf sBit eBit =>
    obtain ⟨readable, accesses⟩ := blendbuf_admitted h low high (apart rfl)
    simp only [accessDenied, readable]
    by_cases hidden : alphaOf (s.pixel s.latch.ops.src k) = 0#8
    · simp [hidden]
    · obtain ⟨writable, blended⟩ := accesses hidden
      by_cases solid : alphaOf (s.pixel s.latch.ops.src k) = 255#8
      · simp [writable, solid]
      · simp [writable, blended solid]
  | grad sBit eBit => simp [accessDenied, gradBody_admitted h low high]
  | blendc sBit eBit => simp [accessDenied, eachPixel_memRewrite_admitted h low high]
  | opac sBit eBit scale => simp [accessDenied, eachPixel_memRewrite_admitted h low high]
  | opacm sBit eBit => simp [accessDenied, eachPixel_memCombine_admitted h low high]
  | bright sBit eBit scale => simp [accessDenied, eachPixel_memRewrite_admitted h low high]
  | brightm sBit eBit => simp [accessDenied, eachPixel_memCombine_admitted h low high]
  | fill sBit eBit => simp [accessDenied, eachPixel_memWrite_admitted h low high]

/-- A command that makes an access has a destination (R71). -/
theorem usesDst_of_accessDenied {i : Instr} {s : State} {k : Nat} (denied : accessDenied i s k = true) :
    usesDst i = true := by
  cases i with
  | blend => cases denied
  | blendl alpha => cases denied
  | _ => rfl

/-- Settles O48: the body cannot complete with an access refused, and stuck is the only way it stops (R69, R71). -/
theorem unadmittedAccessLeavesTheBlockStuck : Obligations.UnadmittedAccessLeavesTheBlockStuck := by
  intro i s first last k ready visible low high denied
  obtain ⟨dstValid, srcValid, region, apart⟩ := ready
  rw [exec_eq_runRegion (usesDst_of_accessDenied denied) visible]
  refine runRegion_of_stop (argumentChecks_none.2 ⟨dstValid, srcValid⟩) region (fun ⟨reads, overlap⟩ => ?_) ?_
  · simp [apart reads] at overlap
  · cases body : regionBody i s.launch s.latch.ops first last s.mem with
    | ok m => simp [regionBody_admitted body low high apart] at denied
    | error r => rw [(regionBody_writesOwnRegion i s.launch s.latch.ops).stops first last s.mem r body]

/-! ### The region a word names -/

/-- A word that decodes matches a row of R97, which builds the command. -/
theorem decode_row {w : Word} {i : Instr} (h : decode w = .ok i) :
    ∃ r ∈ decodeRows, r.matchesWord w = true ∧ r.build w = i := by
  unfold decode at h
  split at h
  · next r found =>
    exact ⟨r, List.mem_of_find?_eq_some found, by simpa using List.find?_some found, Except.ok.inj h⟩
  · cases h

/-- Where the mask of a row has a bit set, a word that matches the row has the pattern's bit (R97). -/
theorem getLsbD_of_matchesWord {r : DecodeRow} {w : Word} {k : Nat} (matched : r.matchesWord w = true)
    (fixed : r.mask.getLsbD k = true) : w.getLsbD k = r.pattern.getLsbD k := by
  rw [← eq_of_beq matched, BitVec.getLsbD_and, fixed, Bool.and_true]

/-- Every row fixes OPC and M (R97). -/
theorem decodeRows_fix_opcode : ∀ r ∈ decodeRows, ∀ k ∈ [0, 1, 2, 3, 6], r.mask.getLsbD k = true := by decide

/-- A word that matches a row has the OPC and M of its pattern (R96, R97). -/
theorem opcode_of_matchesWord {r : DecodeRow} {w : Word} (row : r ∈ decodeRows) (matched : r.matchesWord w = true) :
    w.extractLsb' 0 4 = r.pattern.extractLsb' 0 4 ∧ w.getLsbD 6 = r.pattern.getLsbD 6 := by
  have bit (k : Nat) (listed : k ∈ [0, 1, 2, 3, 6]) : w.getLsbD k = r.pattern.getLsbD k :=
    getLsbD_of_matchesWord matched (decodeRows_fix_opcode r row k listed)
  refine ⟨BitVec.eq_of_getLsbD_eq fun k low => ?_, bit 6 (by decide)⟩
  simp only [BitVec.getLsbD_extractLsb', low, Nat.zero_add]
  rw [bit k (by interval_cases k <;> decide)]

/-- The bits by which a legal word names the buffers and the region of its command (R92, R96): OPC 3 and up take a
destination, OPC 3 and OPC 6 or 7 with M a source, and bits 4 and 5 are S and E. -/
structure WordNamesBuffers (w : Word) (i : Instr) : Prop where
  dst : usesDst i = true ↔ 3#4 ≤ w.extractLsb' 0 4
  src : usesSrc i = true ↔
    w.extractLsb' 0 4 = 3#4 ∨ ((w.extractLsb' 0 4 = 6#4 ∨ w.extractLsb' 0 4 = 7#4) ∧ w.getLsbD 6 = true)
  sBit : sBitOf i = w.getLsbD 4
  eBit : eBitOf i = w.getLsbD 5

/-- The command that a row builds takes the buffers that the OPC and M of its pattern say (R96, R232). -/
theorem decodeRows_build {r : DecodeRow} (row : r ∈ decodeRows) (w : Word) :
    usesDst (r.build w) = decide (3#4 ≤ r.pattern.extractLsb' 0 4) ∧
      usesSrc (r.build w) = decide (r.pattern.extractLsb' 0 4 = 3#4 ∨
        ((r.pattern.extractLsb' 0 4 = 6#4 ∨ r.pattern.extractLsb' 0 4 = 7#4) ∧ r.pattern.getLsbD 6 = true)) := by
  simp only [decodeRows, List.mem_cons, List.not_mem_nil, or_false] at row
  obtain rfl | rfl | rfl | rfl | rfl | rfl | rfl | rfl | rfl | rfl := row
  all_goals exact ⟨rfl, rfl⟩

/-- The command that a row builds has S and E from bits 4 and 5; the rows of BLEND and BLENDL fix both at 0 (R92, R97). -/
theorem decodeRows_region {r : DecodeRow} {w : Word} (row : r ∈ decodeRows) (matched : r.matchesWord w = true) :
    sBitOf (r.build w) = w.getLsbD 4 ∧ eBitOf (r.build w) = w.getLsbD 5 := by
  simp only [decodeRows, List.mem_cons, List.not_mem_nil, or_false] at row
  have fixed (k : Nat) := getLsbD_of_matchesWord (k := k) matched
  obtain rfl | rfl | row := row
  · exact ⟨(fixed 4 (by decide)).symm, (fixed 5 (by decide)).symm⟩
  · exact ⟨(fixed 4 (by decide)).symm, (fixed 5 (by decide)).symm⟩
  · obtain rfl | rfl | rfl | rfl | rfl | rfl | rfl | rfl := row
    all_goals exact ⟨rfl, rfl⟩

/-- A legal word names the buffers and the region of its command (R92, R96, R97). -/
theorem decode_namesBuffers {w : Word} {i : Instr} (h : decode w = .ok i) : WordNamesBuffers w i := by
  obtain ⟨r, row, matched, rfl⟩ := decode_row h
  obtain ⟨opc, mBit⟩ := opcode_of_matchesWord row matched
  obtain ⟨dst, src⟩ := decodeRows_build row w
  obtain ⟨sBit, eBit⟩ := decodeRows_region row matched
  exact ⟨by rw [dst, opc, decide_eq_true_iff], by rw [src, opc, mBit, decide_eq_true_iff], sBit, eBit⟩

/-- Settles O22: the command's buffers and S and E are those bits of its word, and the region is the normalizer's of them
(R61, R92, R96, R170). -/
theorem commandRegionFollowsTheWord : Obligations.CommandRegionFollowsTheWord := by
  intro w i o h
  obtain ⟨dst, src, sBit, eBit⟩ := decode_namesBuffers h
  refine ⟨dst, src, ?_⟩
  simp only [commandRegion, effectiveWidth, rawStart, rawEnd, sBit, eBit, src]
  rfl

end Sys2Proof.Machine

/-! SUPPORT. The command word (30_encoding.md): a word as its fields, the rows of the decoder as the words of the commands
they build, the words the assembler makes, and the `wait` loop. -/

namespace Sys2Proof.Machine

/-! ### The fields of a command word -/

/-- The fields of a command word (R90), with bit 7 and bits 31:17, the reserved ones (R94). -/
structure WordFields where
  opc   : BitVec 4
  sBit  : Bool
  eBit  : Bool
  mBit  : Bool
  bit7  : Bool
  param : BitVec 9
  high  : BitVec 15

/-- Where R90 puts each field. -/
def fieldsOf (w : Word) : WordFields :=
  { opc := w.extractLsb' 0 4, sBit := fieldS w, eBit := fieldE w, mBit := w.getLsbD 6, bit7 := w.getLsbD 7,
    param := fieldParam w, high := w.extractLsb' 17 15 }

/-- The number that the fields spell (R90). -/
def WordFields.value (f : WordFields) : Nat :=
  f.opc.toNat + 16 * f.sBit.toNat + 32 * f.eBit.toNat + 64 * f.mBit.toNat + 128 * f.bit7.toNat + 256 * f.param.toNat +
    131072 * f.high.toNat

/-- The fields cover the 32 bits, each bit once (R90). -/
theorem toNat_eq_value_fieldsOf (w : Word) : w.toNat = (fieldsOf w).value := by
  simp only [fieldsOf, fieldS, fieldE, fieldParam, WordFields.value, BitVec.extractLsb'_toNat, BitVec.getLsbD,
    Nat.toNat_testBit, Nat.shiftRight_eq_div_pow]
  have := w.isLt
  omega

theorem fieldsOf_injective : Function.Injective fieldsOf := fun v w same =>
  BitVec.eq_of_toNat_eq (by rw [toNat_eq_value_fieldsOf, toNat_eq_value_fieldsOf, same])

/-- Each bit of an assembled word is the bit of the field that lies there (R90, R102). -/
theorem getLsbD_assembleWord (param : BitVec 9) (m e s : Bool) (opc : BitVec 4) (k : Nat) :
    (assembleWord param m e s opc).getLsbD k =
      if k < 4 then opc.getLsbD k else if k = 4 then s else if k = 5 then e else if k = 6 then m
      else if k = 7 then false else param.getLsbD (k - 8) := by
  simp only [assembleWord, BitVec.getLsbD_setWidth, BitVec.getLsbD_append, BitVec.getLsbD_ofBool]
  by_cases low : k < 8
  · interval_cases k <;> simp
  · have past (h : ¬k < 32) : param.getLsbD (k - 8) = false := BitVec.getLsbD_of_ge _ _ (by omega)
    grind

/-- An assembled word has the fields it is assembled from, and its reserved bits are 0 (R90, R94, R102). -/
theorem fieldsOf_assembleWord (param : BitVec 9) (m e s : Bool) (opc : BitVec 4) :
    fieldsOf (assembleWord param m e s opc) =
      { opc := opc, sBit := s, eBit := e, mBit := m, bit7 := false, param := param, high := 0#15 } := by
  simp only [fieldsOf, fieldS, fieldE, fieldParam, getLsbD_assembleWord, WordFields.mk.injEq]
  refine ⟨?_, rfl, rfl, rfl, rfl, ?_, ?_⟩
  all_goals
    refine BitVec.eq_of_getLsbD_eq fun k low => ?_
    simp only [BitVec.getLsbD_extractLsb', low, decide_true, Bool.true_and, getLsbD_assembleWord]
  · simp [low]
  · grind
  · have past := BitVec.getLsbD_of_ge param (17 + k - 8) (by omega)
    rw [BitVec.getLsbD_zero]
    grind

@[simp] theorem fieldS_assembleWord (param : BitVec 9) (m e s : Bool) (opc : BitVec 4) :
    fieldS (assembleWord param m e s opc) = s :=
  congrArg WordFields.sBit (fieldsOf_assembleWord param m e s opc)

@[simp] theorem fieldE_assembleWord (param : BitVec 9) (m e s : Bool) (opc : BitVec 4) :
    fieldE (assembleWord param m e s opc) = e :=
  congrArg WordFields.eBit (fieldsOf_assembleWord param m e s opc)

@[simp] theorem fieldParam_assembleWord (param : BitVec 9) (m e s : Bool) (opc : BitVec 4) :
    fieldParam (assembleWord param m e s opc) = param :=
  congrArg WordFields.param (fieldsOf_assembleWord param m e s opc)

/-- The weight is the low byte of PARAM (R95, R154). -/
theorem fieldAlpha_eq (w : Word) : fieldAlpha w = (fieldParam w).setWidth 8 := by
  refine BitVec.eq_of_getLsbD_eq fun k low => ?_
  have inParam : k < 9 := by omega
  simp [fieldAlpha, fieldParam, low, inParam]

/-- The word assembled from some fields is the one word that has them and reserved bits 0 (R90, R94). -/
theorem assembleWord_eq_iff {param : BitVec 9} {m e s : Bool} {opc : BitVec 4} {w : Word} :
    assembleWord param m e s opc = w ↔
      fieldsOf w = { opc := opc, sBit := s, eBit := e, mBit := m, bit7 := false, param := param, high := 0#15 } := by
  rw [← fieldsOf_assembleWord, fieldsOf_injective.eq_iff, eq_comm]

/-! ### The rows of the table -/

theorem matchesWord_iff_fieldsOf (r : DecodeRow) (w : Word) :
    r.matchesWord w = true ↔ fieldsOf (w &&& r.mask) = fieldsOf r.pattern := by
  rw [fieldsOf_injective.eq_iff, DecodeRow.matchesWord, beq_iff_eq]

/-- PARAM is a weight exactly where bit 16 is 0 (R95, R98). -/
theorem fieldParam_eq_fieldAlpha_iff (w : Word) :
    fieldParam w = (fieldAlpha w).setWidth 9 ↔ w.getLsbD 16 = false := by
  rw [fieldAlpha_eq]
  constructor
  · intro whole
    have bit := congrArg (·.getLsbD 8) whole
    simpa [fieldParam] using bit
  · intro clear
    refine BitVec.eq_of_getLsbD_eq fun k low => ?_
    obtain below | rfl : k < 8 ∨ k = 8 := by omega
    · simp [low, below]
    · simpa [fieldParam] using clear

theorem fieldParam_and (v w : Word) : fieldParam (v &&& w) = fieldParam v &&& fieldParam w := BitVec.extractLsb'_and

/-- A mask of bit 16 alone asks that the bit is 0 (R97). -/
theorem fieldParam_and_256_iff (w : Word) : fieldParam w &&& 256#9 = 0#9 ↔ w.getLsbD 16 = false := by
  change fieldParam w &&& BitVec.twoPow 9 8 = 0#9 ↔ _
  rw [BitVec.and_twoPow]
  simp [fieldParam]

/-- A row accepts a word exactly where the word is that of the command the row builds from it (R97, R102). -/
theorem matchesWord_iff_encode_build {r : DecodeRow} (row : r ∈ decodeRows) (w : Word) :
    r.matchesWord w = true ↔ encode (r.build w) = w := by
  have wholeOpc (x : BitVec 4) : x &&& 15#4 = x := BitVec.and_allOnes
  have wholeParam (x : BitVec 9) : x &&& 511#9 = x := BitVec.and_allOnes
  have wholeHigh (x : BitVec 15) : x &&& 32767#15 = x := BitVec.and_allOnes
  simp only [decodeRows, List.mem_cons, List.not_mem_nil, or_false] at row
  rw [matchesWord_iff_fieldsOf]
  obtain rfl | rfl | rfl | rfl | rfl | rfl | rfl | rfl | rfl | rfl := row
  all_goals simp only [encode, assembleWord_eq_iff]
  case inr.inl =>
    have maskParam : fieldParam 0xFFFF00FF#32 = 256#9 := rfl
    have patternParam : fieldParam 2#32 = 0#9 := rfl
    simp [fieldsOf, fieldS, fieldE, fieldParam_and, maskParam, patternParam, fieldParam_and_256_iff,
      fieldParam_eq_fieldAlpha_iff, BitVec.extractLsb'_and, wholeOpc, wholeHigh]
  all_goals simp [fieldsOf, fieldS, fieldE, fieldParam, BitVec.extractLsb'_and, wholeOpc, wholeParam, wholeHigh]

/-- No word matches two rows: the patterns of two rows differ at a bit that both masks fix (R97). -/
theorem decodeRows_disjoint :
    decodeRows.Pairwise fun r q => r.pattern &&& q.mask ≠ q.pattern &&& r.mask := by decide

/-- A word that matches two rows gives both patterns the same bits where both masks fix them. -/
theorem patterns_agree_of_matchesWord {r q : DecodeRow} {w : Word} (hr : r.matchesWord w = true)
    (hq : q.matchesWord w = true) : r.pattern &&& q.mask = q.pattern &&& r.mask := by
  rw [← eq_of_beq hr, ← eq_of_beq hq, BitVec.and_assoc, BitVec.and_assoc, BitVec.and_comm r.mask]

/-- The row that a word matches is the row that the decoder finds (R97). -/
theorem decode_of_matchesWord {r : DecodeRow} {w : Word} (row : r ∈ decodeRows) (matched : r.matchesWord w = true) :
    decode w = .ok (r.build w) := by
  obtain ⟨before, after, rows⟩ := List.append_of_mem row
  have found : decodeRows.find? (fun q => q.matchesWord w) = some r := by
    refine List.find?_eq_some_iff_append.2 ⟨matched, before, after, rows, fun q earlier => ?_⟩
    have apart := decodeRows_disjoint
    rw [rows] at apart
    have differ := (List.pairwise_append.1 apart).2.2 q earlier r List.mem_cons_self
    simpa using fun hq => differ (patterns_agree_of_matchesWord hq matched)
  unfold decode
  rw [found]

/-- Every command is what its row of R97 builds from the command's own word. -/
theorem exists_row_build_encode (i : Instr) : ∃ r ∈ decodeRows, r.build (encode i) = i := by
  cases i with
  | blend => exact ⟨decodeRows[0], List.getElem_mem _, rfl⟩
  | blendl alpha => exact ⟨decodeRows[1], List.getElem_mem _, by simp [decodeRows, encode, fieldAlpha_eq]⟩
  | blendbuf sBit eBit => exact ⟨decodeRows[2], List.getElem_mem _, by simp [decodeRows, encode]⟩
  | grad sBit eBit => exact ⟨decodeRows[3], List.getElem_mem _, by simp [decodeRows, encode]⟩
  | blendc sBit eBit => exact ⟨decodeRows[4], List.getElem_mem _, by simp [decodeRows, encode]⟩
  | opac sBit eBit scale => exact ⟨decodeRows[5], List.getElem_mem _, by simp [decodeRows, encode]⟩
  | opacm sBit eBit => exact ⟨decodeRows[6], List.getElem_mem _, by simp [decodeRows, encode]⟩
  | bright sBit eBit scale => exact ⟨decodeRows[7], List.getElem_mem _, by simp [decodeRows, encode]⟩
  | brightm sBit eBit => exact ⟨decodeRows[8], List.getElem_mem _, by simp [decodeRows, encode]⟩
  | fill sBit eBit => exact ⟨decodeRows[9], List.getElem_mem _, by simp [decodeRows, encode]⟩

/-- A word is illegal exactly where it is the word of none of the commands that the rows build from it (R97, R98). -/
theorem decode_illegal_iff (w : Word) : decode w = .error .illegal ↔ ∀ r ∈ decodeRows, encode (r.build w) ≠ w := by
  constructor
  · intro illegal r row same
    rw [decode_of_matchesWord row ((matchesWord_iff_encode_build row w).2 same)] at illegal
    cases illegal
  · intro noRow
    cases decoded : decode w with
    | error e => rfl
    | ok i =>
      obtain ⟨r, row, matched, -⟩ := decode_row decoded
      exact absurd ((matchesWord_iff_encode_build row w).1 matched) (noRow r row)

/-- The ten forms use the opcodes 1 to 8; every other opcode is illegal (R96, R98). -/
theorem opcode_cases (opc : BitVec 4) :
    (opc = 0#4 ∨ 9#4 ≤ opc) ∨ opc ∈ [1#4, 2#4, 3#4, 4#4, 5#4, 6#4, 7#4, 8#4] := by
  revert opc
  decide

/-- An opcode that no form uses is none of the eight. -/
theorem opcode_outside {opc : BitVec 4} (outside : opc = 0#4 ∨ 9#4 ≤ opc) :
    ∀ used ∈ [1#4, 2#4, 3#4, 4#4, 5#4, 6#4, 7#4, 8#4], opc ≠ used := by
  revert opc
  decide

/-! ### The assembler -/

/-- The number of an assembled word (R90, R102). -/
theorem toNat_assembleWord (param : BitVec 9) (m e s : Bool) (opc : BitVec 4) :
    (assembleWord param m e s opc).toNat =
      opc.toNat + 16 * s.toNat + 32 * e.toNat + 64 * m.toNat + 256 * param.toNat := by
  rw [toNat_eq_value_fieldsOf, fieldsOf_assembleWord]
  simp [WordFields.value]

/-- The spellings that the assembler accepts (R102). -/
theorem check_ok_iff (c : CmdSpelling) :
    c.check = .ok () ↔
      (c.name.takesRegion = false → c.sSuffix = false ∧ c.eSuffix = false) ∧
        ((c.name.immMax = none ∧ c.imm = none) ∨
          ∃ top k, c.name.immMax = some top ∧ c.imm = some k ∧ 0 ≤ k ∧ k ≤ top) := by
  unfold CmdSpelling.check
  split
  · grind
  · next allowed =>
    have suffix : c.name.takesRegion = false → c.sSuffix = false ∧ c.eSuffix = false := by simpa using allowed
    simp only [iff_true_intro suffix, true_and]
    cases c.name.immMax <;> cases c.imm <;> simp

/-- The assembler makes a command of exactly the spellings it accepts (R102). -/
theorem toInstr_error_iff (c : CmdSpelling) : (∃ e, c.toInstr = .error e) ↔ c.check ≠ .ok () := by
  unfold CmdSpelling.toInstr
  cases c.check with
  | error e => simp
  | ok u => cases c.name <;> simp

/-- The number that an accepted spelling carries fits its form (R95, R102). -/
theorem imm_of_check_ok {c : CmdSpelling} (accepted : c.check = .ok ()) :
    0 ≤ c.imm.getD 0 ∧ c.imm.getD 0 ≤ c.name.immMax.getD 0 := by
  obtain ⟨-, ⟨noParam, noImm⟩ | ⟨top, k, max, imm, low, high⟩⟩ := (check_ok_iff c).1 accepted
  · simp [noParam, noImm]
  · simp [max, imm, low, high]

/-- An 8-bit weight fills PARAM as the number itself does (R95). -/
theorem setWidth_ofInt_weight {k : Int} (low : 0 ≤ k) (high : k ≤ 255) :
    (BitVec.ofInt 8 k).setWidth 9 = BitVec.ofInt 9 k := by
  apply BitVec.eq_of_toNat_eq
  simp only [BitVec.toNat_setWidth, BitVec.toNat_ofInt]
  omega

theorem check_of_toInstr {c : CmdSpelling} {i : Instr} (h : c.toInstr = .ok i) : c.check = .ok () := by
  by_contra refused
  obtain ⟨e, error⟩ := (toInstr_error_iff c).2 refused
  exact absurd (h.symm.trans error) (by simp)

/-- The word of an accepted spelling is assembled from the suffix letters, the immediate (0 where there is none) and the OPC
and M of its row of R96 (R102). -/
theorem encode_of_toInstr {c : CmdSpelling} {i : Instr} (h : c.toInstr = .ok i) :
    ∃ m opc, opcodeOf c.name = opc.toNat + 64 * m.toNat ∧
      encode i = assembleWord (BitVec.ofInt 9 (c.imm.getD 0)) m c.eSuffix c.sSuffix opc := by
  have accepted := check_of_toInstr h
  have fits := imm_of_check_ok accepted
  obtain ⟨suffix, param⟩ := (check_ok_iff c).1 accepted
  simp only [CmdSpelling.toInstr, accepted] at h
  obtain ⟨name, sSuffix, eSuffix, imm⟩ := c
  cases name with
  | BLEND =>
    obtain ⟨rfl, rfl⟩ := suffix rfl
    obtain rfl : imm = none := by simpa [Mnemonic.immMax] using param
    cases h
    exact ⟨false, 1#4, rfl, rfl⟩
  | BLENDL =>
    obtain ⟨rfl, rfl⟩ := suffix rfl
    cases h
    exact ⟨false, 2#4, rfl, by rw [encode, setWidth_ofInt_weight fits.1 fits.2]⟩
  | OPAC => cases h; exact ⟨false, 6#4, rfl, rfl⟩
  | BRIGHT => cases h; exact ⟨false, 7#4, rfl, rfl⟩
  | _ =>
    obtain rfl : imm = none := by simpa [Mnemonic.immMax] using param
    cases h
    exact ⟨_, _, by rfl, rfl⟩

/-! ### The wait loop -/

/-- The execution step, when it ends, has completed: RESULT, memory and STATUS alone may have changed (R43). -/
theorem executeLatched_frame {s t : State} (h : executeLatched s = .next t) :
    ∃ m v e, t = ((s.withMem m).withResult v).complete e := by
  unfold executeLatched at h
  split at h
  · next i legal =>
    obtain ⟨-, v, rfl⟩ | ⟨-, m, e, rfl⟩ := exec_frame h
    · exact ⟨s.mem, v, .ok, rfl⟩
    · exact ⟨m, s.result, e, rfl⟩
  · next r illegal =>
    cases h
    exact ⟨s.mem, s.result, .illegal, rfl⟩

/-- What the latched command gives depends on neither the turns still to come nor the value the host last read (R40). -/
theorem executeLatched_withScript {s t : State} (v : Word) (l : List Move) (h : executeLatched s = .next t) :
    ∃ u, executeLatched ((s.receive v).withScript l) = .next u ∧
      u.mem = t.mem ∧ u.result = t.result ∧ u.status = t.status := by
  unfold executeLatched at h ⊢
  rw [State.withScript_latch, State.receive_latch]
  split at h
  · next i legal =>
    exact executionReadsOnlyLatchAndMemory i s ((s.receive v).withScript l) t rfl rfl rfl rfl rfl h
  · cases h
    exact ⟨_, rfl, rfl, rfl, rfl⟩

theorem step_host {m : HostMove} {rest : List Move} {s : State} (script : s.script = .host m :: rest) :
    step s = hostTurn m (s.withScript rest) := by
  simp only [step, takeTurn, script]

/-- A poll while BUSY leaves the loop pending and gives the block the turn before the next poll (R103, R275). -/
theorem step_wait_busy {rest : List Move} {s : State} (script : s.script = .host .wait :: rest)
    (busy : s.status.busy = true) :
    step s = .next ((s.receive s.status.word).withScript (.block :: .host .wait :: rest)) := by
  rw [step_host script]
  simp only [hostTurn, hostWait, State.withScript_status, busy, if_true]
  rfl

/-- A poll of an IDLE block ends the loop (R103). -/
theorem step_wait_idle {rest : List Move} {s : State} (script : s.script = .host .wait :: rest)
    (idle : s.status.busy = false) : step s = .next ((s.withScript rest).receive s.status.word) := by
  rw [step_host script]
  simp [hostTurn, hostWait, idle]

/-- The block's turn at the head of the script runs the latched command of a BUSY block (R43, R240). -/
theorem step_block_busy {rest : List Move} {s : State} (script : s.script = .block :: rest)
    (busy : s.status.busy = true) : step s = executeLatched (s.withScript rest) := by
  simp only [step, takeTurn, script, blockTurn, State.withScript_status, busy, if_true]

theorem coreRun_succ {M : Host.Core} {k : Nat} {s t : M.State} (h : M.step s = .next t) :
    M.run (k + 1) s = M.run k t := by
  simp only [Host.Core.run, h]

/-! ### The statements about the encoding -/

/-- Settles O1: the row that builds the command from its word accepts that word, and the decoder finds it (R96, R97). -/
theorem decodeOfEncodeIsTheCommand : Obligations.DecodeOfEncodeIsTheCommand := by
  intro i
  obtain ⟨r, row, built⟩ := exists_row_build_encode i
  have matched : r.matchesWord (encode i) = true := (matchesWord_iff_encode_build row _).2 (by rw [built])
  rw [decode_of_matchesWord row matched, built]

/-- Settles O2: the row that the decoder finds accepts the word, which is therefore the word of the command it builds (R97,
R98). -/
theorem encodeOfDecodeIsTheWord : Obligations.EncodeOfDecodeIsTheWord := by
  intro w i h
  obtain ⟨r, row, matched, rfl⟩ := decode_row h
  exact (matchesWord_iff_encode_build row w).1 matched

/-- Decoding and encoding are inverse to each other (R97). -/
theorem decode_eq_ok_iff {w : Word} {i : Instr} : decode w = .ok i ↔ encode i = w :=
  ⟨encodeOfDecodeIsTheWord w i, fun word => word ▸ decodeOfEncodeIsTheCommand i⟩

/-- Settles O4: each pattern word is the word of its command (R97). -/
theorem patternWordsDecode : Obligations.PatternWordsDecode := by
  simp only [Obligations.PatternWordsDecode, decode_eq_ok_iff]
  decide

/-- Settles O3: what the ten forms ask of the fields, one opcode at a time, and the two turns of a word that none of them
admits: acceptance and completion with ILLEGAL (R24, R98). -/
theorem illegalWordsAndTheirCompletion : Obligations.IllegalWordsAndTheirCompletion := by
  refine ⟨fun w => ?_, fun w s idle => ?_, fun s busy illegal => ?_⟩
  · rw [decode_illegal_iff]
    simp only [decodeRows, List.forall_mem_cons, List.not_mem_nil, IsEmpty.forall_iff, implies_true, encode, ne_eq,
      assembleWord_eq_iff, fieldsOf, WordFields.mk.injEq, fieldParam_eq_fieldAlpha_iff, and_true, true_and]
    simp only [fieldS, fieldE, fieldParam]
    obtain outside | used := opcode_cases (w.extractLsb' 0 4)
    · have unused := opcode_outside outside
      simp only [List.forall_mem_cons] at unused
      simp [outside, unused]
    · simp only [List.mem_cons, List.not_mem_nil, or_false] at used
      obtain opc | opc | opc | opc | opc | opc | opc | opc := used
      all_goals
        simp [opc]
        grind
  · rw [hostTurn_writeReg_CMD, writeSlot_CMD_idle w idle]
    rfl
  · simp only [blockTurn, busy, if_true, executeLatched, illegal]
    rfl

/-- Settles O5: the refusals form by form, and the word of an accepted spelling as the number its fields spell (R96,
R102). -/
theorem assembledWordsHaveTheirFields : Obligations.AssembledWordsHaveTheirFields := by
  intro c
  refine ⟨?_, fun i h => ?_⟩
  · rw [toInstr_error_iff, ne_eq, check_ok_iff]
    cases name : c.name
    case BLEND | BLENDL =>
      simp [Mnemonic.takesRegion, Mnemonic.immMax]
      grind
    all_goals simp [Mnemonic.takesRegion, Mnemonic.immMax]
  · obtain ⟨m, opc, code, word⟩ := encode_of_toInstr h
    obtain ⟨low, high⟩ := imm_of_check_ok (check_of_toInstr h)
    have top : c.name.immMax.getD 0 ≤ 511 := by cases c.name <;> decide
    have param : (BitVec.ofInt 9 (c.imm.getD 0)).toNat = (c.imm.getD 0).toNat := by
      simp only [BitVec.toNat_ofInt]
      omega
    rw [word, toNat_assembleWord, code, param]
    omega

/-- Settles O19: a poll that reads BUSY 1, the block's turn, in which the command completes, and a poll that reads BUSY 0
(R103, R275). -/
theorem waitEndsWhenTheCommandCompletes : Obligations.WaitEndsWhenTheCommandCompletes := by
  intro s t rest script busy run
  obtain ⟨u, turn, mem, result, status⟩ := executeLatched_withScript s.status.word (.host .wait :: rest) run
  obtain ⟨m, v, e, completed⟩ := executeLatched_frame turn
  have pending : u.script = .host .wait :: rest := by rw [completed]; rfl
  have idle : u.status.busy = false := by rw [completed]; rfl
  have completes : u.status.done = true := by rw [completed]; rfl
  have poll := step_wait_busy script busy
  have block := (step_block_busy (s := (s.receive s.status.word).withScript (.block :: .host .wait :: rest))
    rfl busy).trans turn
  have lastPoll := step_wait_idle pending idle
  obtain ⟨busyBit, doneBit, -⟩ := u.status.word_low
  refine ⟨(u.withScript rest).receive u.status.word, ?_, rfl, congrArg Status.word status, busyBit.trans idle,
    doneBit.trans completes, mem, result, status⟩
  calc Sys2Proof.core.run 3 s
      = Sys2Proof.core.run 2 ((s.receive s.status.word).withScript (.block :: .host .wait :: rest)) := coreRun_succ poll
    _ = Sys2Proof.core.run 1 u := coreRun_succ block
    _ = .next ((u.withScript rest).receive u.status.word) := coreRun_succ lastPoll

end Sys2Proof.Machine

/-! SUPPORT. The leaf units of 40_primitives.md: the codec as four bytes side by side, the region normalizer as two clamped
bounds, the interpolator as a monotone map of its source range, and what a region command makes of the normalizer's answer. -/

namespace Sys2Proof.Machine

/-! ### The codec -/

/-- A packed pixel is its four channels side by side, A at the top (R120, R122). -/
theorem pack_eq_append (c : Channels) : pack c = c.a ++ (c.r ++ (c.g ++ c.b)) := by
  refine BitVec.eq_of_getLsbD_eq fun k low => ?_
  simp only [pack, BitVec.getLsbD_or, BitVec.getLsbD_shiftLeft, BitVec.getLsbD_setWidth, BitVec.getLsbD_append]
  have past (x : Byte) (j : Nat) (h : 8 ≤ j) : x.getLsbD j = false := BitVec.getLsbD_of_ge x j h
  grind

/-- The channels of a pixel put together again are the pixel (R123). -/
@[simp] theorem pack_unpack (p : Word) : pack (unpack p) = p := by
  obtain ⟨b, g, r, a⟩ := pixelByte_le p
  rw [pack_eq_append, ← a, ← r, ← g, ← b]
  exact pixelByte_joined p

/-- A packed pixel has the channels it is packed from (R123). -/
@[simp] theorem unpack_pack (c : Channels) : unpack (pack c) = c := by
  obtain ⟨a, r, g, b⟩ := c
  rw [pack_eq_append, unpack, Channels.mk.injEq]
  refine ⟨?_, ?_, ?_, ?_⟩
  · exact BitVec.extractLsb'_append_eq_left
  · rw [BitVec.extractLsb'_append_eq_of_add_le (by decide)]
    exact BitVec.extractLsb'_append_eq_left
  · rw [BitVec.extractLsb'_append_eq_of_add_le (by decide), BitVec.extractLsb'_append_eq_of_add_le (by decide)]
    exact BitVec.extractLsb'_append_eq_left
  · rw [BitVec.extractLsb'_append_eq_of_add_le (by decide), BitVec.extractLsb'_append_eq_of_add_le (by decide)]
    exact BitVec.extractLsb'_append_eq_right

/-- Settles O20: neither direction of the codec loses a bit (R123). -/
theorem codecIsABijection : Obligations.CodecIsABijection := ⟨pack_unpack, unpack_pack⟩

/-! ### The region normalizer -/

/-- Step 2 of R126: the start, clamped from below. -/
def clampedStart (width : Nat) (first : Int) : Int := max (fromEnd width first) 0

/-- Step 2 of R126: the end, clamped from above. -/
def clampedEnd (width : Nat) (last : Int) : Int := min (fromEnd width last) ((width : Int) - 1)

/-- The normalizer in its two clamped bounds (R126). -/
theorem resolve_eq (width : Nat) (first last : Int) :
    resolve width first last =
      if (width : Int) ≤ clampedStart width first ∨ clampedEnd width last < clampedStart width first then none
      else some ((clampedStart width first).toNat, (clampedEnd width last).toNat) := by
  rw [ite_or]
  rfl

/-- A negative bound has the width added (R126). -/
theorem fromEnd_of_neg {width : Nat} {bound : Int} (negative : bound < 0) : fromEnd width bound = bound + width :=
  if_pos negative

/-- A bound from 0 on stays (R126). -/
theorem fromEnd_of_nonneg {width : Nat} {bound : Int} (counted : 0 ≤ bound) : fromEnd width bound = bound :=
  if_neg (by omega)

/-- A bound in the last `width` places below 0 names the same pixel as the bound with the width added (R126). -/
theorem fromEnd_add_width {width : Nat} {bound : Int} (low : -(width : Int) ≤ bound) (negative : bound < 0) :
    fromEnd width (bound + width) = fromEnd width bound := by
  rw [fromEnd_of_neg negative, fromEnd_of_nonneg (by omega)]

/-- A start at or below -width is clamped up to 0 (R126, R128). -/
theorem clampedStart_of_le {width : Nat} {first : Int} (below : first ≤ -(width : Int)) : clampedStart width first = 0 := by
  unfold clampedStart fromEnd
  split <;> omega

theorem clampedStart_nonneg (width : Nat) (first : Int) : 0 ≤ clampedStart width first := le_max_right _ _

/-- An end below -width lies before every pixel (R126, R128). -/
theorem clampedEnd_neg_of_lt {width : Nat} {last : Int} (below : last < -(width : Int)) : clampedEnd width last < 0 := by
  unfold clampedEnd
  rw [fromEnd_of_neg (by omega)]
  omega

/-- Raw bounds that clamp alike resolve alike (R126). -/
theorem resolve_congr {width : Nat} {a a' b b' : Int} (start : clampedStart width a = clampedStart width a')
    (stop : clampedEnd width b = clampedEnd width b') : resolve width a b = resolve width a' b' := by
  rw [resolve_eq, resolve_eq, start, stop]

/-- The normalizer answers EMPTY exactly where the clamped start is past the width or past the clamped end (R126). -/
theorem resolve_none_iff {width : Nat} {a b : Int} :
    resolve width a b = none ↔ (width : Int) ≤ clampedStart width a ∨ clampedEnd width b < clampedStart width a := by
  rw [resolve_eq]
  split
  · next empty => exact iff_of_true rfl empty
  · next resolved => exact iff_of_false nofun resolved

/-- A resolved region is the pair of clamped bounds (R126). -/
theorem resolve_some_iff {width first last : Nat} {a b : Int} :
    resolve width a b = some (first, last) ↔
      clampedStart width a < width ∧ clampedStart width a ≤ clampedEnd width b ∧
        (first : Int) = clampedStart width a ∧ (last : Int) = clampedEnd width b := by
  have nonneg := clampedStart_nonneg width a
  rw [resolve_eq]
  split
  · next empty => exact iff_of_false nofun (by omega)
  · next resolved =>
    rw [Option.some.injEq, Prod.mk.injEq]
    omega

/-- Settles O21: the clamps of R126, written out as case distinctions. -/
theorem normalizerComputesTheClampedRegion : Obligations.NormalizerComputesTheClampedRegion := by
  intro width rawFirst rawLast s1 e1 s2 e2
  have start : clampedStart width rawFirst = s2 := by
    change max s1 0 = s2
    grind
  have stop : clampedEnd width rawLast = e2 := by
    change min e1 ((width : Int) - 1) = e2
    grind
  rw [← start, ← stop]
  exact ⟨resolve_none_iff, fun _ _ => resolve_some_iff⟩

/-- Settles O23: the start is clamped up to 0, the end down to width - 1, and the start is not past the end (R127). -/
theorem resolvedRegionLiesInside : Obligations.ResolvedRegionLiesInside := by
  intro width a b first last region
  obtain ⟨ordered, below⟩ := resolve_bounds region
  exact ⟨Nat.zero_le first, ordered, below⟩

/-- Settles O24: raw bounds that clamp alike resolve alike, and no end is left below the start 0 (R128). -/
theorem normalizerCornerCases : Obligations.NormalizerCornerCases := by
  refine ⟨fun a b => ?_, by decide, fun width a b below => ?_, fun width a b low negative => ?_,
    fun width a b low negative => ?_, by decide, fun last high => ?_, fun width a b below => ?_⟩
  · exact resolve_none_iff.2 (.inl (clampedStart_nonneg 0 a))
  · have zero : clampedStart width 0 = 0 := by rw [clampedStart, fromEnd_of_nonneg le_rfl, max_self]
    exact resolve_congr ((clampedStart_of_le below).trans zero.symm) rfl
  · exact resolve_congr (congrArg (max · 0) (fromEnd_add_width low negative).symm) rfl
  · exact resolve_congr rfl (congrArg (min · ((width : Int) - 1)) (fromEnd_add_width low negative).symm)
  · have stop : clampedEnd 10 last = 9 := by
      rw [clampedEnd, fromEnd_of_nonneg (by omega)]
      omega
    have start : clampedStart 10 (-1) = 9 := by decide
    exact resolve_some_iff.2 ⟨by omega, by omega, start.symm, stop.symm⟩
  · have := clampedEnd_neg_of_lt below
    have := clampedStart_nonneg width a
    exact resolve_none_iff.2 (.inr (by omega))

/-! ### The interpolator -/

/-- Truncating division keeps the signs and divides the magnitudes (R132). -/
theorem tdiv_eq_sign_mul (n d : Int) : tdiv n d = n.sign * d.sign * ((n.natAbs / d.natAbs : Nat) : Int) := by
  calc tdiv n d = (n.tdiv d).sign * ((n.tdiv d).natAbs : Int) := (Int.sign_mul_natAbs _).symm
    _ = (if n.natAbs < d.natAbs then 0 else n.sign * d.sign) * ((n.natAbs / d.natAbs : Nat) : Int) := by
      rw [Int.sign_tdiv, Int.natAbs_tdiv]
      rfl
    _ = n.sign * d.sign * ((n.natAbs / d.natAbs : Nat) : Int) := by
      split
      · next small => simp [Nat.div_eq_of_lt small]
      · rfl

/-- Settles O25: the guard decides between the fault and the formula, and truncation is division of magnitudes (R130, R132,
R134). -/
theorem interpolatorValueAndGuard : Obligations.InterpolatorValueAndGuard :=
  ⟨fun _ _ _ _ => if_pos rfl, fun _ _ _ _ _ range => if_neg range, by decide, fun n d _ => tdiv_eq_sign_mul n d⟩

@[simp] theorem remapValue_at_fmin (fmin fmax tmin tmax : Int) : remapValue fmin fmin fmax tmin tmax = tmin := by
  simp [remapValue, tdiv]

theorem remapValue_at_fmax {fmin fmax : Int} (range : fmin ≠ fmax) (tmin tmax : Int) :
    remapValue fmax fmin fmax tmin tmax = tmax := by
  rw [remapValue, tdiv, Int.mul_tdiv_cancel_left _ (by omega)]
  omega

/-- Towards a higher end the interpolator rises with v (R130, R132). -/
theorem remapValue_mono {v w fmin fmax tmin tmax : Int} (range : fmin < fmax) (rising : tmin ≤ tmax) (le : v ≤ w) :
    remapValue v fmin fmax tmin tmax ≤ remapValue w fmin fmax tmin tmax := by
  have product : (v - fmin) * (tmax - tmin) ≤ (w - fmin) * (tmax - tmin) :=
    mul_le_mul_of_nonneg_right (by omega) (by omega)
  exact Int.add_le_add_left (Int.tdiv_le_tdiv (by omega) product) tmin

/-- Towards a lower end the interpolator falls with v (R130, R133). -/
theorem remapValue_anti {v w fmin fmax tmin tmax : Int} (range : fmin < fmax) (falling : tmax ≤ tmin) (le : v ≤ w) :
    remapValue w fmin fmax tmin tmax ≤ remapValue v fmin fmax tmin tmax := by
  have product : (w - fmin) * (tmax - tmin) ≤ (v - fmin) * (tmax - tmin) :=
    mul_le_mul_of_nonpos_right (by omega) (by omega)
  exact Int.add_le_add_left (Int.tdiv_le_tdiv (by omega) product) tmin

/-- Settles O26: the interpolator is exact at both ends and runs between them in one direction (R133, R135). -/
theorem interpolatorStaysBetweenTheEnds : Obligations.InterpolatorStaysBetweenTheEnds := by
  intro v fmin fmax tmin tmax range low high
  have atMin := remapValue_at_fmin fmin fmax tmin tmax
  have atMax := remapValue_at_fmax range.ne tmin tmax
  obtain rising | falling := Int.le_total tmin tmax
  · have above := remapValue_mono range rising low
    have below := remapValue_mono range rising high
    exact ⟨by omega, by omega, atMin, atMax⟩
  · have below := remapValue_anti range falling low
    have above := remapValue_anti range falling high
    exact ⟨by omega, by omega, atMin, atMax⟩

/-- From a source range that begins at 0 the product is v times the distance of the ends (R130, R137). -/
theorem remapValue_from_zero (v fmax tmin tmax : Int) :
    remapValue v 0 fmax tmin tmax = tmin + (v * (tmax - tmin)).tdiv fmax := by
  rw [remapValue, tdiv, Int.sub_zero, Int.sub_zero]

/-- With both ranges from 0 on, the interpolator is a quotient of naturals (R137). -/
theorem remapValue_natCast (x fmax y : Nat) : remapValue x 0 fmax 0 y = ((x * y / fmax : Nat) : Int) := by
  rw [remapValue_from_zero, Int.zero_add, Int.sub_zero, Int.ofNat_tdiv, Nat.cast_mul]

/-- Settles O27: source and destination ranges from 0 on make a quotient of naturals, in which a common factor of 255
cancels (R137). -/
theorem interpolatorClosedForms : Obligations.InterpolatorClosedForms := by
  refine ⟨fun x y _ _ => ⟨remapValue_natCast x 255 y, ?_⟩, fun x _ => ?_, fun x _ => ?_, fun w cb ca _ _ => ?_,
    fun k n c1 c2 _ _ => ?_⟩
  · calc remapValue y 0 255 0 x = ((y * x / 255 : Nat) : Int) := remapValue_natCast y 255 x
      _ = ((x * y / 255 : Nat) : Int) := by rw [Nat.mul_comm]
      _ = remapValue x 0 255 0 y := (remapValue_natCast x 255 y).symm
  · calc remapValue x 0 65025 0 255 = ((x * 255 / (255 * 255) : Nat) : Int) := remapValue_natCast x 65025 255
      _ = ((x / 255 : Nat) : Int) := by rw [Nat.mul_div_mul_right x 255 (by decide)]
  · calc remapValue x 0 65280 0 255 = ((x * 255 / (256 * 255) : Nat) : Int) := remapValue_natCast x 65280 255
      _ = ((x / 256 : Nat) : Int) := by rw [Nat.mul_div_mul_right x 256 (by decide)]
  · exact remapValue_from_zero w 255 cb ca
  · exact remapValue_from_zero k n c1 c2

/-! ### EMPTY regions and argument errors -/

/-- A region command whose argument check fails raises that error (R170, R232). -/
theorem runRegion_of_error {readsSrc sBit eBit : Bool} {body : Nat → Nat → Memory → Except Fault Memory} {s : State}
    {e : ErrCode} (fails : argumentChecks readsSrc s.latch.ops = some e) :
    runRegion readsSrc sBit eBit body s = .next (s.complete e) := by
  simp only [runRegion, prologue, fails, raiseError]

/-- A region command over an EMPTY region does not come to its body (R129, R170). -/
theorem runRegion_of_empty {readsSrc sBit eBit : Bool} {body : Nat → Nat → Memory → Except Fault Memory} {s : State}
    (checks : argumentChecks readsSrc s.latch.ops = none)
    (empty : resolve (effectiveWidth readsSrc s.latch.ops) (rawStart sBit s.latch.ops) (rawEnd eBit s.latch.ops) = none) :
    runRegion readsSrc sBit eBit body s = .next (s.complete .ok) := by
  simp only [runRegion, prologue, checks, empty]

/-- A command whose argument check fails raises that error whatever its region, BLENDC also whatever its color (R176, R232,
R234). -/
theorem exec_of_argumentChecks_some {i : Instr} {s : State} {e : ErrCode} (writes : usesDst i = true)
    (fails : argumentChecks (usesSrc i) s.latch.ops = some e) : exec i s = .next (s.complete e) := by
  cases i with
  | blend => cases writes
  | blendl alpha => cases writes
  | blendc sBit eBit =>
    rw [usesSrc] at fails
    simp only [exec, execBlendc, fails, raiseError]
  | _ => exact runRegion_of_error fails

/-- A command with valid buffers and an EMPTY region completes with no access (R129, R176). -/
theorem exec_of_commandRegion_none {i : Instr} {s : State} (writes : usesDst i = true)
    (checks : argumentChecks (usesSrc i) s.latch.ops = none) (empty : commandRegion i s.latch.ops = none) :
    exec i s = .next (s.complete .ok) := by
  obtain ⟨single, -⟩ | ⟨-, run⟩ | ⟨-, run⟩ := exec_shape i s.latch.ops
  · rw [writes] at single
    cases single
  · exact run s rfl
  · exact (run s rfl).trans (runRegion_of_empty checks empty)

/-- Settles O44: the argument checks come first, the normalizer's answer second, the body last (R129, R170, R232). -/
theorem emptyRegionIsANoOp : Obligations.EmptyRegionIsANoOp := by
  intro i s writes
  refine ⟨fun dstValid srcValid empty => ?_, fun invalid => ?_⟩
  · exact exec_of_commandRegion_none writes (argumentChecks_none.2 ⟨dstValid, srcValid⟩) empty
  · cases checks : argumentChecks (usesSrc i) s.latch.ops with
    | none =>
      obtain ⟨dstValid, srcValid⟩ := argumentChecks_none.1 checks
      obtain dst | ⟨reads, src⟩ := invalid
      · exact absurd dstValid (by simp [dst])
      · exact absurd (srcValid reads) (by simp [src])
    | some e =>
      have run := exec_of_argumentChecks_some writes checks
      obtain ⟨-, rfl⟩ | ⟨-, -, -, rfl⟩ := argumentChecks_some.1 checks
      · exact .inl run
      · exact .inr run

end Sys2Proof.Machine

/-! SUPPORT. The pixel blends of 41_pixel_blend.md: a lane as an integer, the over blend and the cross-fade channel by channel,
and the two commands that put a blend in RESULT. -/

namespace Sys2Proof.Machine

/-! ### Lanes -/

/-- A computed lane in range is not cut off (R122). -/
theorem chan_lane {x : Int} (low : 0 ≤ x) (high : x ≤ 255) : chan (lane x) = x := by
  rw [chan, lane, BitVec.toNat_ofInt]
  omega

theorem toNat_lane_natCast {n : Nat} (high : n ≤ 255) : (lane n).toNat = n :=
  Nat.cast_injective (R := Int) (chan_lane (Int.natCast_nonneg n) (Int.ofNat_le.2 high))

@[simp] theorem lane_chan (c : Byte) : lane (chan c) = c :=
  BitVec.eq_of_toNat_eq (toNat_lane_natCast (Nat.le_of_lt_succ c.isLt))

/-- What a channel lacks to full is a natural number. -/
theorem full_sub_chan (c : Byte) : 255 - chan c = ((255 - c.toNat : Nat) : Int) := by
  rw [chan]
  omega

/-- Between two channels the interpolator answers a lane, which lies between them (R133, R135). -/
theorem chan_lane_remapValue {v fmin fmax : Int} (range : fmin < fmax) (low : fmin ≤ v) (high : v ≤ fmax) (c1 c2 : Byte) :
    chan (lane (remapValue v fmin fmax (chan c1) (chan c2))) = remapValue v fmin fmax (chan c1) (chan c2) ∧
      min c1.toNat c2.toNat ≤ (lane (remapValue v fmin fmax (chan c1) (chan c2))).toNat ∧
      (lane (remapValue v fmin fmax (chan c1) (chan c2))).toNat ≤ max c1.toNat c2.toNat := by
  obtain ⟨above, below, -⟩ := interpolatorStaysBetweenTheEnds v fmin fmax (chan c1) (chan c2) range low high
  generalize remapValue v fmin fmax (chan c1) (chan c2) = x at above below ⊢
  have value : chan (lane x) = x := by
    simp only [chan] at above below
    exact chan_lane (by omega) (by omega)
  rw [← value] at above below
  simp only [chan] at above below
  exact ⟨value, by omega, by omega⟩

/-- The interpolator scales a natural by another over 255, rounded down (R137). -/
theorem remapValue_byte (x y : Nat) : remapValue x 0 255 0 y = ((x * y / 255 : Nat) : Int) :=
  remapValue_natCast x 255 y

/-! ### One channel of the over blend -/

/-- A mean of two channels with weights that add up to 255, not yet divided, is at most 255 * 255. -/
theorem weightedChannels_le (a dst src : Byte) :
    (255 - a.toNat) * dst.toNat + a.toNat * src.toNat ≤ 255 * 255 := by
  have dstTerm : (255 - a.toNat) * dst.toNat ≤ (255 - a.toNat) * 255 := Nat.mul_le_mul_left _ (by omega)
  have srcTerm : a.toNat * src.toNat ≤ a.toNat * 255 := Nat.mul_le_mul_left _ (by omega)
  omega

/-- An RGB lane of the over blend: two quotients, each rounded down on its own (R150). -/
theorem toNat_blendLane (a dst src : Byte) :
    (blendLane a dst src).toNat = (255 - a.toNat) * dst.toNat / 255 + a.toNat * src.toNat / 255 := by
  have fits : (255 - a.toNat) * dst.toNat / 255 + a.toNat * src.toNat / 255 ≤ 255 := by
    have := weightedChannels_le a dst src
    omega
  rw [blendLane, full_sub_chan, chan, chan, chan, remapValue_byte, remapValue_byte, ← Nat.cast_add,
    toNat_lane_natCast fits]

/-- The alpha lane does not leave the range, so the min of R150 never acts. -/
theorem blendedAlpha_le (a1 a2 : Byte) : a1.toNat + (255 - a1.toNat) * a2.toNat / 255 ≤ 255 := by
  have : (255 - a1.toNat) * a2.toNat ≤ (255 - a1.toNat) * 255 := Nat.mul_le_mul_left _ (by omega)
  omega

theorem toNat_blendAlpha (a1 a2 : Byte) :
    (blendAlpha a1 a2).toNat = a1.toNat + (255 - a1.toNat) * a2.toNat / 255 := by
  have fits := blendedAlpha_le a1 a2
  have term : remapValue ((255 - chan a1) * chan a2) 0 (255 * 255) 0 255 =
      (((255 - a1.toNat) * a2.toNat / 255 : Nat) : Int) := by
    rw [full_sub_chan, chan, ← Nat.cast_mul]
    calc remapValue _ 0 (255 * 255) 0 255 = (((255 - a1.toNat) * a2.toNat * 255 / (255 * 255) : Nat) : Int) :=
          remapValue_natCast _ (255 * 255) 255
      _ = (((255 - a1.toNat) * a2.toNat / 255 : Nat) : Int) := by rw [Nat.mul_div_mul_right _ _ (by decide)]
  rw [blendAlpha, term, chan, ← Nat.cast_add, min_eq_left (by omega), toNat_lane_natCast fits]

@[simp] theorem blendLane_transparent (dst src : Byte) : blendLane 0#8 dst src = dst :=
  BitVec.eq_of_toNat_eq (by simp [toNat_blendLane])

@[simp] theorem blendLane_opaque (dst src : Byte) : blendLane 255#8 dst src = src :=
  BitVec.eq_of_toNat_eq (by simp [toNat_blendLane])

@[simp] theorem blendAlpha_transparent (a1 : Byte) : blendAlpha a1 0#8 = a1 :=
  BitVec.eq_of_toNat_eq (by simp [toNat_blendAlpha])

@[simp] theorem blendAlpha_onto_transparent (a2 : Byte) : blendAlpha 0#8 a2 = a2 :=
  BitVec.eq_of_toNat_eq (by simp [toNat_blendAlpha])

@[simp] theorem blendAlpha_opaque (a1 : Byte) : blendAlpha a1 255#8 = 255#8 := by
  refine BitVec.eq_of_toNat_eq ?_
  rw [toNat_blendAlpha, BitVec.toNat_ofNat]
  omega

/-! ### The over blend of two pixels -/

/-- The over blend's formula, without the fast path for a transparent source (R150). -/
def blendFormula (d s : Channels) : Channels :=
  { a := blendAlpha d.a s.a, r := blendLane s.a d.r s.r, g := blendLane s.a d.g s.g, b := blendLane s.a d.b s.b }

theorem blendFormula_transparent (d : Channels) {s : Channels} (transparent : s.a = 0#8) : blendFormula d s = d := by
  simp [blendFormula, transparent]

theorem blendFormula_opaque (d : Channels) {s : Channels} (full : s.a = 255#8) : blendFormula d s = s := by
  simp only [blendFormula, full, blendAlpha_opaque, blendLane_opaque]
  rw [← full]

/-- The fast path of `blend_pair` answers what its formula answers (R151). -/
theorem unpack_blendPair (c1 c2 : Word) : unpack (blendPair c1 c2) = blendFormula (unpack c1) (unpack c2) := by
  rw [blendPair]
  split
  · next transparent => exact (blendFormula_transparent _ transparent).symm
  · exact unpack_pack _

theorem blendPair_eq_pack (c1 c2 : Word) : blendPair c1 c2 = pack (blendFormula (unpack c1) (unpack c2)) := by
  rw [← unpack_blendPair, pack_unpack]

theorem blendPair_transparent (c1 : Word) {c2 : Word} (transparent : alphaOf c2 = 0#8) : blendPair c1 c2 = c1 :=
  if_pos transparent

theorem blendPair_opaque (c1 : Word) {c2 : Word} (full : alphaOf c2 = 255#8) : blendPair c1 c2 = c2 := by
  rw [blendPair_eq_pack, blendFormula_opaque _ full, pack_unpack]

theorem blendPair_alpha (c1 c2 : Word) :
    (unpack (blendPair c1 c2)).a.toNat =
      (unpack c1).a.toNat + (255 - (unpack c1).a.toNat) * (unpack c2).a.toNat / 255 := by
  rw [unpack_blendPair]
  exact toNat_blendAlpha _ _

/-- The three RGB channels of the over blend are computed alike (R150). -/
theorem blendPair_rgb (c1 c2 : Word) : ∀ ch ∈ [Channels.r, Channels.g, Channels.b],
    (ch (unpack (blendPair c1 c2))).toNat =
      (255 - (unpack c2).a.toNat) * (ch (unpack c1)).toNat / 255 +
        (unpack c2).a.toNat * (ch (unpack c2)).toNat / 255 := by
  simp only [unpack_blendPair, List.forall_mem_cons, List.not_mem_nil, false_imp_iff, implies_true, and_true]
  exact ⟨toNat_blendLane _ _ _, toNat_blendLane _ _ _, toNat_blendLane _ _ _⟩

/-- The two truncations together lose at least what one truncation of the sum loses (R151). -/
theorem blendPair_rgb_le (c1 c2 : Word) {ch : Channels → Byte} (rgb : ch ∈ [Channels.r, Channels.g, Channels.b]) :
    (ch (unpack (blendPair c1 c2))).toNat ≤
      ((255 - (unpack c2).a.toNat) * (ch (unpack c1)).toNat + (unpack c2).a.toNat * (ch (unpack c2)).toNat) / 255 :=
  (blendPair_rgb c1 c2 ch rgb).trans_le (Nat.div_add_div_le_add_div)

/-- Settles O28: the lanes of the over blend are the channels it packs (R150). -/
theorem blendPairLanes : Obligations.BlendPairLanes := by
  intro c1 c2
  have rgb := blendPair_rgb c1 c2
  exact ⟨blendPair_transparent c1, fun _ =>
    ⟨blendPair_alpha c1 c2, rgb Channels.r (by simp), rgb Channels.g (by simp), rgb Channels.b (by simp)⟩⟩

/-- Settles O29: the properties are those of one channel; white and black, both at full alpha, show that the order counts
(R151). -/
theorem blendPairProperties : Obligations.BlendPairProperties := by
  refine ⟨fun c1 c2 => ⟨fun _ => ?_, fun _ => blendPair_alpha c1 c2, blendedAlpha_le _ _, fun transparent => ?_,
    blendPair_opaque c1, fun clear _ => ?_, ?_⟩, ⟨0xFFFFFFFF#32, 0xFF000000#32, by decide⟩, by decide, by decide, by decide⟩
  · exact ⟨blendPair_rgb_le c1 c2 (by simp), blendPair_rgb_le c1 c2 (by simp), blendPair_rgb_le c1 c2 (by simp)⟩
  · simp only [blendAlpha_transparent, blendLane_transparent]
    exact ⟨blendPair_transparent c1 transparent, pack_unpack c1⟩
  · rw [alphaOf] at clear
    rw [alphaOf, unpack_blendPair, blendFormula, clear, blendAlpha_onto_transparent, alphaOf]
  · exact (Nat.le_add_right _ _).trans_eq (blendPair_alpha c1 c2).symm

/-! ### The cross-fade -/

/-- A channel of the cross-fade is the interpolator between both inputs, no lane cut off, so it lies between them (R153,
R155). -/
theorem linearLane_between (w ca cb : Byte) :
    chan (linearLane w ca cb) = chan cb + (chan w * (chan ca - chan cb)).tdiv 255 ∧
      min ca.toNat cb.toNat ≤ (linearLane w ca cb).toNat ∧ (linearLane w ca cb).toNat ≤ max ca.toNat cb.toNat := by
  obtain ⟨value, above, below⟩ := chan_lane_remapValue (v := chan w) (fmin := 0) (fmax := 255) (by decide)
    (Int.natCast_nonneg _) (Int.ofNat_le.2 (Nat.le_of_lt_succ w.isLt)) cb ca
  exact ⟨value.trans (remapValue_from_zero _ _ _ _), min_comm cb.toNat _ ▸ above, max_comm cb.toNat _ ▸ below⟩

@[simp] theorem linearLane_zero (ca cb : Byte) : linearLane 0#8 ca cb = cb := by
  rw [linearLane, show chan 0#8 = 0 from rfl, remapValue_at_fmin, lane_chan]

@[simp] theorem linearLane_full (ca cb : Byte) : linearLane 255#8 ca cb = ca := by
  rw [linearLane, show chan 255#8 = 255 from rfl, remapValue_at_fmax (by decide), lane_chan]

/-- The four channels of the cross-fade are computed alike (R153). -/
theorem unpack_blendLinear (ca cb : Word) (w : Byte) : ∀ ch ∈ [Channels.a, Channels.r, Channels.g, Channels.b],
    ch (unpack (blendLinear ca cb w)) = linearLane w (ch (unpack ca)) (ch (unpack cb)) := by
  simp [blendLinear]

theorem blendLinear_between (ca cb : Word) (w : Byte) {ch : Channels → Byte}
    (channel : ch ∈ [Channels.a, Channels.r, Channels.g, Channels.b]) :
    min (ch (unpack ca)).toNat (ch (unpack cb)).toNat ≤ (ch (unpack (blendLinear ca cb w))).toNat ∧
      (ch (unpack (blendLinear ca cb w))).toNat ≤ max (ch (unpack ca)).toNat (ch (unpack cb)).toNat := by
  rw [unpack_blendLinear ca cb w ch channel]
  exact (linearLane_between w _ _).2

theorem blendLinear_zero (ca cb : Word) : blendLinear ca cb 0#8 = cb := by
  simp only [blendLinear, linearLane_zero]
  exact pack_unpack cb

theorem blendLinear_full (ca cb : Word) : blendLinear ca cb 255#8 = ca := by
  simp only [blendLinear, linearLane_full]
  exact pack_unpack ca

/-- Settles O30: each channel is an interpolation; white and black, both at half alpha, show that full weight is not the over
blend (R155). -/
theorem blendLinearProperties : Obligations.BlendLinearProperties := by
  refine ⟨fun ca cb w => ?_, fun ca cb => ⟨blendLinear_zero ca cb, blendLinear_full ca cb⟩, by decide, by decide,
    ⟨0x80FFFFFF#32, 0x80000000#32, by decide, by decide⟩⟩
  exact ⟨blendLinear_between ca cb w (by simp), blendLinear_between ca cb w (by simp),
    blendLinear_between ca cb w (by simp), blendLinear_between ca cb w (by simp)⟩

/-! ### The two single-pixel commands -/

/-- Settles O34: RESULT is the over blend of the latched colors (R152), whose lanes are those of R150. -/
theorem blendWritesTheBlendToResult : Obligations.BlendWritesTheBlendToResult := by
  intro s
  refine ⟨(s.withResult (blendPair s.latch.ops.color1 s.latch.ops.color2)).complete .ok, rfl, rfl, ?_, fun _ => ?_⟩
  · exact blendPair_transparent s.latch.ops.color1
  · exact ⟨blendPair_alpha _ _, blendPair_rgb _ _⟩

/-- Settles O35: RESULT is the cross-fade of the latched colors (R154), each channel the one formula of R153. -/
theorem blendlWritesTheCrossFadeToResult : Obligations.BlendlWritesTheCrossFadeToResult := by
  intro alpha s
  refine ⟨(s.withResult (blendLinear s.latch.ops.color1 s.latch.ops.color2 alpha)).complete .ok, rfl, rfl, ?_⟩
  intro ch channel
  rw [State.complete_result, State.withResult_result, unpack_blendLinear _ _ _ ch channel]
  exact (linearLane_between alpha _ _).1

end Sys2Proof.Machine

/-! SUPPORT. The region commands of 42_region_compose.md: what it is to paint a region of a buffer, which commands paint which
pixels, and what two commands that paint the same have in common. -/

namespace Sys2Proof.Machine

/-! ### Painting a region -/

/-- Memory m' is memory m with pixel i of the region painted g i and no other byte changed (R70). -/
structure PaintsRegion (order : ByteOrder) (d : Descriptor) (first last : Nat) (g : Nat → Word) (m m' : Memory) : Prop where
  pixel : ∀ i, first ≤ i → i ≤ last → m'.readWord order (d.pixelAddr i) = g i
  rest : ∀ a, d.outside first last a → m'.read a = m.read a

/-- Byte k of a word in memory is the byte of memory k places on (R64). -/
theorem Memory.pixelByte_readWord (order : ByteOrder) (m : Memory) (a : Nat) {k : Nat} (byte : k < 4) :
    pixelByte order (m.readWord order a) k = m.read (a + k) := by
  refine BitVec.eq_of_getLsbD_eq fun j low => ?_
  cases order <;> simp only [pixelByte, Memory.readWord, BitVec.getLsbD_extractLsb', BitVec.getLsbD_append] <;>
    interval_cases k <;> grind

/-- A byte of a region is a byte of one of its pixels (R63). -/
theorem Descriptor.outside_or_byte (d : Descriptor) (first last a : Nat) :
    d.outside first last a ∨ ∃ i k, first ≤ i ∧ i ≤ last ∧ k < 4 ∧ a = d.pixelAddr i + k := by
  unfold Descriptor.outside Descriptor.pixelAddr
  by_cases inside : d.base.toNat + 4 * first ≤ a ∧ a < d.base.toNat + 4 * last + 4
  · exact .inr ⟨(a - d.base.toNat) / 4, (a - d.base.toNat) % 4, by omega, by omega, by omega, by omega⟩
  · exact .inl (by omega)

/-- Painting a region of one memory with the same pixels gives the same bytes. -/
theorem PaintsRegion.unique {order : ByteOrder} {d : Descriptor} {first last : Nat} {g₁ g₂ : Nat → Word}
    {m m₁ m₂ : Memory} (paints₁ : PaintsRegion order d first last g₁ m m₁)
    (paints₂ : PaintsRegion order d first last g₂ m m₂) (same : ∀ i, first ≤ i → i ≤ last → g₁ i = g₂ i) (a : Nat) :
    m₁.read a = m₂.read a := by
  obtain outside | ⟨i, k, low, high, byte, rfl⟩ := d.outside_or_byte first last a
  · rw [paints₁.rest a outside, paints₂.rest a outside]
  · rw [← m₁.pixelByte_readWord order _ byte, ← m₂.pixelByte_readWord order _ byte, paints₁.pixel i low high,
      paints₂.pixel i low high, same i low high]

/-- A memory is painted already with what its pixels hold. -/
theorem PaintsRegion.refl {order : ByteOrder} {d : Descriptor} {first last : Nat} {g : Nat → Word} {m : Memory}
    (holds : ∀ i, first ≤ i → i ≤ last → m.readWord order (d.pixelAddr i) = g i) : PaintsRegion order d first last g m m :=
  ⟨holds, fun _ _ => rfl⟩

/-- A loop whose pixel j writes no other pixel, and leaves g j there as long as only earlier pixels of the region have
changed, paints the region (R42, R74). -/
theorem eachPixel_paints {order : ByteOrder} {d : Descriptor} {f : Nat → Memory → Except Fault Memory}
    (own : WritesOwnPixel order d f) {first last : Nat} {g : Nat → Word} {m : Memory} (ordered : first ≤ last)
    (each : ∀ j a, first ≤ j → j ≤ last →
      (∀ x, x < d.pixelAddr first ∨ d.pixelAddr j ≤ x → Memory.read a x = m.read x) →
      ∃ b, f j a = .ok b ∧ b.readWord order (d.pixelAddr j) = g j) :
    ∃ m', eachPixel f first last m = .ok m' ∧ PaintsRegion order d first last g m m' := by
  obtain ⟨m', run, pixel, rest⟩ := eachPixel_pointwise (f := f) order d.base.toNat first last g m ordered
    fun j a low high same => by
      obtain ⟨b, run, painted⟩ := each j a low high same
      exact ⟨b, run, painted, fun x apart => own.keeps (P := fun c => c.read x = a.read x)
        (fun v => Memory.read_writeWord_other order a _ x v apart) run rfl⟩
  exact ⟨m', run, pixel, rest⟩

/-- The command completes from s with outcome OK, having painted the region first..last of its destination with g and
changed nothing else but STATUS (R43, R70). -/
def ExecPaints (i : Instr) (s : State) (first last : Nat) (g : Nat → Word) : Prop :=
  ∃ m, exec i s = .next (s.doneFrom .ok m) ∧ PaintsRegion s.launch.byteOrder s.latch.ops.dst first last g s.mem m

/-- A command that paints its region, said of the state it ends in. -/
theorem ExecPaints.completes {i : Instr} {s : State} {first last : Nat} {g : Nat → Word}
    (paints : ExecPaints i s first last g) :
    ∃ t, exec i s = .next t ∧ t = s.doneFrom .ok t.mem ∧
      (∀ k, first ≤ k → k ≤ last → t.pixel s.latch.ops.dst k = g k) ∧
      (∀ a, s.latch.ops.dst.outside first last a → t.mem.read a = s.mem.read a) := by
  obtain ⟨m, run, pixel, rest⟩ := paints
  exact ⟨_, run, rfl, pixel, rest⟩

/-- A command paints its region where its body does (R170). -/
theorem execPaints_of_body {i : Instr} {s : State} {first last : Nat} {g : Nat → Word} (writes : usesDst i = true)
    (visible : ∀ sBit eBit, i = .blendc sBit eBit → alphaOf s.latch.ops.color1 ≠ 0#8) (ready : RegionReady i s first last)
    (body : ∃ m, regionBody i s.launch s.latch.ops first last s.mem = .ok m ∧
      PaintsRegion s.launch.byteOrder s.latch.ops.dst first last g s.mem m) : ExecPaints i s first last g := by
  obtain ⟨dstValid, srcValid, region, apart⟩ := ready
  obtain ⟨m, run, paints⟩ := body
  have completes := runRegion_of_region (argumentChecks_none.2 ⟨dstValid, srcValid⟩) region
    (fun ⟨reads, overlap⟩ => by simp [apart reads] at overlap) run
  exact ⟨m, (exec_eq_runRegion writes visible).trans completes, paints⟩

/-- A resolved region has a first pixel (R126). -/
theorem RegionReady.ordered {i : Instr} {s : State} {first last : Nat} (ready : RegionReady i s first last) :
    first ≤ last := by
  obtain ⟨-, -, region, -⟩ := ready
  exact (resolve_bounds region).1

/-- The pixel that a loop comes to is as the loop found it. -/
theorem readWord_of_untouched {order : ByteOrder} {d : Descriptor} {first k : Nat} {a m : Memory}
    (same : ∀ x, x < d.pixelAddr first ∨ d.pixelAddr k ≤ x → Memory.read a x = m.read x) :
    a.readWord order (d.pixelAddr k) = m.readWord order (d.pixelAddr k) :=
  Memory.readWord_congr _ _ _ _ fun n _ => same _ (.inr (Nat.le_add_right _ n))

/-! ### BLENDBUF -/

/-- A pixel of BLENDBUF that is admitted what its source alpha asks for leaves the blend in the destination: the two pixels it
does not blend are those whose blend is one of its inputs (R151, R171). -/
theorem blendbufPixel_completes {l : Launch} {o : OperandRegs} {k : Nat} {m : Memory} {c2 : Word}
    (source : m.readWord l.byteOrder (o.src.pixelAddr k) = c2) (readable : admits l .read (o.src.pixelAddr k) = true)
    (writable : alphaOf c2 ≠ 0#8 → admits l .write (o.dst.pixelAddr k) = true)
    (dstReadable : alphaOf c2 ≠ 0#8 → alphaOf c2 ≠ 255#8 → admits l .read (o.dst.pixelAddr k) = true) :
    ∃ m', blendbufPixel l o k m = .ok m' ∧
      m'.readWord l.byteOrder (o.dst.pixelAddr k) = blendPair (m.readWord l.byteOrder (o.dst.pixelAddr k)) c2 := by
  simp only [blendbufPixel, memRead_ok.2 ⟨readable, source.symm⟩]
  split
  · next transparent => exact ⟨m, rfl, (blendPair_transparent _ transparent).symm⟩
  · next visible =>
    split
    · next solid =>
      exact ⟨_, memWrite_ok.2 ⟨writable visible, rfl⟩, by rw [Memory.readWord_writeWord_self, blendPair_opaque _ solid]⟩
    · next sheer =>
      exact ⟨_, memRewrite_ok.2 ⟨dstReadable visible sheer, writable visible, rfl⟩, Memory.readWord_writeWord_self _ _ _ _⟩

/-- The bytes of source pixel k lie apart from the destination pixels before k (R79). -/
theorem source_byte_apart {o : OperandRegs} {first last k n : Nat} (apart : partialOverlap o first last = false)
    (high : k ≤ last) (byte : n < 4) :
    o.src.pixelAddr k + n < o.dst.pixelAddr first ∨ o.dst.pixelAddr k ≤ o.src.pixelAddr k + n := by
  by_contra! inside
  have meets := pixelAddr_apart (j := (o.src.pixelAddr k + n - o.dst.base.toNat) / 4) (k := k) apart
  unfold Descriptor.pixelAddr at *
  omega

/-- Every access that BLENDBUF makes to pixels of its region is admitted (R171). -/
abbrev BlendbufAdmitted (s : State) (first last : Nat) : Prop :=
  ∀ i, i ≤ last → first ≤ i →
    admits s.launch .read (s.latch.ops.src.pixelAddr i) = true ∧
    (alphaOf (s.pixel s.latch.ops.src i) ≠ 0#8 → admits s.launch .write (s.latch.ops.dst.pixelAddr i) = true) ∧
    (alphaOf (s.pixel s.latch.ops.src i) ≠ 0#8 → alphaOf (s.pixel s.latch.ops.src i) ≠ 255#8 →
      admits s.launch .read (s.latch.ops.dst.pixelAddr i) = true)

/-- Pixel k of BLENDBUF finds its source and its destination as the command found them (R74, R79), and blends them. -/
theorem blendbuf_paints {sBit eBit : Bool} {s : State} {first last : Nat}
    (ready : RegionReady (.blendbuf sBit eBit) s first last) (admitted : BlendbufAdmitted s first last) :
    ExecPaints (.blendbuf sBit eBit) s first last
      fun k => blendPair (s.pixel s.latch.ops.dst k) (s.pixel s.latch.ops.src k) := by
  have ⟨_, _, _, apart⟩ := ready
  refine execPaints_of_body rfl nofun ready
    (eachPixel_paints (blendbufPixel_writesOwnPixel _ _) ready.ordered fun k m low high same => ?_)
  obtain ⟨readable, writable, dstReadable⟩ := admitted k high low
  have source : m.readWord s.launch.byteOrder (s.latch.ops.src.pixelAddr k) = s.pixel s.latch.ops.src k :=
    Memory.readWord_congr _ _ _ _ fun n byte => same _ (source_byte_apart (apart rfl) high byte)
  rw [State.pixel, ← readWord_of_untouched same]
  exact blendbufPixel_completes source readable writable dstReadable

/-- Settles O36: every pixel of the region is one pixel of BLENDBUF (R171, R172). -/
theorem blendbufBlendsSourceOverDestination : Obligations.BlendbufBlendsSourceOverDestination :=
  fun _ _ _ _ _ ready admitted => (blendbuf_paints ready admitted).completes

/-! ### GRAD -/

/-- The pixel that GRAD leaves at index i of the region first..last (R174, R175). -/
def gradientAt (c1 c2 : Word) (first last i : Nat) : Word :=
  if i = first then c1 else if i = last then c2 else gradPixel c1 c2 (i - first) (last - first)

section
variable (c1 c2 : Word) {first last i : Nat}

@[simp] theorem gradientAt_first : gradientAt c1 c2 first last first = c1 := if_pos rfl

theorem gradientAt_last (longer : first < last) : gradientAt c1 c2 first last last = c2 := by
  rw [gradientAt, if_neg longer.ne', if_pos rfl]

theorem gradientAt_interior (low : first < i) (high : i < last) :
    gradientAt c1 c2 first last i = gradPixel c1 c2 (i - first) (last - first) := by
  rw [gradientAt, if_neg low.ne', if_neg high.ne]

end

/-- The interior of GRAD, which a region of two pixels does not have, keeps both endpoints and all bytes around them (R174). -/
theorem gradInterior_completes {l : Launch} {o : OperandRegs} {first last : Nat} (m : Memory) (longer : first < last)
    (writable : admitsPixels l .write o.dst first last) :
    ∃ m', (if last - first = 1 then Except.ok m
        else eachPixel
          (fun i m => memWrite l m (o.dst.pixelAddr i) (gradPixel o.color1 o.color2 (i - first) (last - first)))
          (first + 1) (last - 1) m) = .ok m' ∧
      (∀ i, first < i → i < last → m'.readWord l.byteOrder (o.dst.pixelAddr i) =
        gradPixel o.color1 o.color2 (i - first) (last - first)) ∧
      ∀ x, x < o.dst.pixelAddr (first + 1) ∨ o.dst.pixelAddr last ≤ x → m'.read x = m.read x := by
  split
  · exact ⟨m, rfl, fun i low high => by omega, fun x _ => rfl⟩
  · obtain ⟨m', run, pixel, rest⟩ := eachPixel_paints
      (memWrite_writesOwnPixel fun i => gradPixel o.color1 o.color2 (i - first) (last - first))
      (show first + 1 ≤ last - 1 by omega) (m := m) fun j a low high _ =>
        ⟨_, memWrite_ok.2 ⟨writable j (by omega) (by omega), rfl⟩, Memory.readWord_writeWord_self _ _ _ _⟩
    refine ⟨m', run, fun i low high => pixel i low (by omega), fun x apart => rest x ?_⟩
    unfold Descriptor.outside Descriptor.pixelAddr at *
    omega

/-- Both endpoints and then the interior make the whole gradient (R174). -/
theorem paintsRegion_gradientAt {order : ByteOrder} {d : Descriptor} {first last : Nat} {c1 c2 : Word} {m m' : Memory}
    (longer : first < last)
    (interior : ∀ i, first < i → i < last →
      m'.readWord order (d.pixelAddr i) = gradPixel c1 c2 (i - first) (last - first))
    (others : ∀ x, x < d.pixelAddr (first + 1) ∨ d.pixelAddr last ≤ x →
      m'.read x = ((m.writeWord order (d.pixelAddr first) c1).writeWord order (d.pixelAddr last) c2).read x) :
    PaintsRegion order d first last (gradientAt c1 c2 first last) m m' := by
  have apart : d.pixelAddr first + 4 ≤ d.pixelAddr last := by
    unfold Descriptor.pixelAddr
    omega
  refine ⟨fun i low high => ?_, fun x outside => ?_⟩
  · obtain rfl | low := low.eq_or_lt
    · have kept := Memory.readWord_congr order _ _ _ fun n byte =>
        others _ (.inl (Nat.add_lt_add_left byte (d.pixelAddr first)))
      rw [gradientAt_first, kept, Memory.readWord_writeWord_other _ _ _ _ _ (.inl apart), Memory.readWord_writeWord_self]
    · obtain rfl | high := high.eq_or_lt
      · have kept := Memory.readWord_congr order _ _ _ fun n _ => others _ (.inr (Nat.le_add_right (d.pixelAddr i) n))
        rw [gradientAt_last _ _ longer, kept, Memory.readWord_writeWord_self]
      · rw [gradientAt_interior _ _ low high, interior i low high]
  · have around : x < d.pixelAddr (first + 1) ∨ d.pixelAddr last ≤ x := by
      unfold Descriptor.outside Descriptor.pixelAddr at *
      omega
    rw [others x around, Memory.read_writeWord_other _ _ _ _ _ (by omega), Memory.read_writeWord_other _ _ _ _ _ (by omega)]

/-- GRAD leaves COLOR1 in its first pixel, COLOR2 in the last of a longer region, and the gradient between them (R174,
R175). -/
theorem gradBody_paints {l : Launch} {o : OperandRegs} {first last : Nat} (m : Memory) (ordered : first ≤ last)
    (writable : admitsPixels l .write o.dst first last) :
    ∃ m', gradBody l o first last m = .ok m' ∧
      PaintsRegion l.byteOrder o.dst first last (gradientAt o.color1 o.color2 first last) m m' := by
  simp only [gradBody, memWrite_ok.2 ⟨writable first ordered le_rfl, rfl⟩]
  obtain rfl | longer := ordered.eq_or_lt
  · rw [if_pos rfl]
    refine ⟨_, rfl, fun i low high => ?_, fun x apart => Memory.read_writeWord_other _ _ _ _ _ apart⟩
    obtain rfl : i = first := by omega
    rw [Memory.readWord_writeWord_self, gradientAt_first]
  · simp only [if_neg longer.ne', memWrite_ok.2 ⟨writable last le_rfl ordered, rfl⟩]
    obtain ⟨m', run, interior, others⟩ := gradInterior_completes _ longer writable
    exact ⟨m', run, paintsRegion_gradientAt longer interior others⟩

theorem grad_paints {sBit eBit : Bool} {s : State} {first last : Nat} (ready : RegionReady (.grad sBit eBit) s first last)
    (writable : admitsPixels s.launch .write s.latch.ops.dst first last) :
    ExecPaints (.grad sBit eBit) s first last (gradientAt s.latch.ops.color1 s.latch.ops.color2 first last) :=
  execPaints_of_body rfl nofun ready (gradBody_paints s.mem ready.ordered writable)

/-- Settles O37: the three clauses are the three cases of the gradient's pixel (R174, R175). -/
theorem gradWritesTheGradient : Obligations.GradWritesTheGradient := by
  intro sBit eBit s first last ready writable
  obtain ⟨t, run, done, pixel, rest⟩ := (grad_paints ready writable).completes
  refine ⟨t, run, done, ?_, fun longer => ?_, fun i low high => ?_, rest⟩
  · rw [pixel first le_rfl ready.ordered, gradientAt_first]
  · rw [pixel last ready.ordered le_rfl, gradientAt_last _ _ longer]
  · rw [pixel i low.le high.le, gradientAt_interior _ _ low high]

/-! ### The gradient's pixel -/

/-- The channels of a gradient pixel are computed alike (R173). -/
theorem unpack_gradPixel (c1 c2 : Word) (k n : Nat) : ∀ ch ∈ [Channels.a, Channels.r, Channels.g, Channels.b],
    ch (unpack (gradPixel c1 c2 k n)) = gradLane k n (ch (unpack c1)) (ch (unpack c2)) := by
  simp [gradPixel]

/-- Settles O31: each lane is an interpolation from the first color to the second (R133, R173). -/
theorem gradientPixelLanes : Obligations.GradientPixelLanes := by
  intro c1 c2 k n low high ch channel
  rw [unpack_gradPixel c1 c2 k n ch channel]
  obtain ⟨value, above, below⟩ := chan_lane_remapValue (v := k) (fmin := 0) (fmax := n) (by omega) (by omega) (by omega)
    (ch (unpack c1)) (ch (unpack c2))
  exact ⟨value.trans (remapValue_from_zero _ _ _ _), above, below⟩

/-! ### BLENDC -/

/-- A transparent color completes BLENDC once its destination is found valid (R176, R234). -/
theorem execBlendc_of_transparent (sBit eBit : Bool) {s : State} (valid : s.latch.ops.dst.valid = true)
    (transparent : alphaOf s.latch.ops.color1 = 0#8) :
    exec (.blendc sBit eBit) s = .next (s.doneFrom .ok s.mem) := by
  have checks : argumentChecks false s.latch.ops = none := argumentChecks_none.2 ⟨valid, nofun⟩
  simp only [exec, execBlendc, checks, if_pos transparent]
  rfl

/-- Settles O46: the argument check comes first, the color second, and the region is not looked at (R176, R234). -/
theorem blendcTransparentColorIsANoOp : Obligations.BlendcTransparentColorIsANoOp :=
  fun sBit eBit _ => execBlendc_of_transparent sBit eBit

section
variable {sBit eBit : Bool} {s : State} {first last : Nat} (ready : RegionReady (.blendc sBit eBit) s first last)
  (readable : admitsPixels s.launch .read s.latch.ops.dst first last)
  (writable : admitsPixels s.launch .write s.latch.ops.dst first last)
include ready readable writable

/-- BLENDC blends its color over its region; where the color is transparent, that is to leave every pixel as it is (R151,
R176). -/
theorem blendc_paints :
    ExecPaints (.blendc sBit eBit) s first last fun k => blendPair (s.pixel s.latch.ops.dst k) s.latch.ops.color1 := by
  by_cases transparent : alphaOf s.latch.ops.color1 = 0#8
  · have ⟨valid, _, _, _⟩ := ready
    exact ⟨s.mem, execBlendc_of_transparent sBit eBit valid transparent,
      .refl fun k _ _ => (blendPair_transparent _ transparent).symm⟩
  · refine execPaints_of_body rfl (fun _ _ _ => transparent) ready
      (eachPixel_paints (memRewrite_writesOwnPixel _) ready.ordered fun k m low high same => ?_)
    refine ⟨_, memRewrite_ok.2 ⟨readable k high low, writable k high low, rfl⟩, ?_⟩
    rw [Memory.readWord_writeWord_self, readWord_of_untouched same, State.pixel]

end

/-- Settles O38: every pixel of the region is one pixel of BLENDC (R176). -/
theorem blendcBlendsTheColorOverRegion : Obligations.BlendcBlendsTheColorOverRegion :=
  fun _ _ _ _ _ ready _ readable writable => (blendc_paints ready readable writable).completes

/-! ### BLENDC against FILL and BLENDBUF -/

/-- Loops over the same pixels whose steps agree there agree. -/
theorem forPixels_congr {f g : Nat → Memory → Except Fault Memory} {n i : Nat} (m : Memory)
    (agree : ∀ j a, i ≤ j → j < i + n → f j a = g j a) : forPixels f n i m = forPixels g n i m := by
  induction n generalizing i m with
  | zero => rfl
  | succ n ih =>
    simp only [forPixels, agree i m (by omega) (by omega)]
    split
    · rfl
    · exact ih _ fun j a low high => agree j a (by omega) (by omega)

theorem eachPixel_congr {f g : Nat → Memory → Except Fault Memory} {first last : Nat} (m : Memory)
    (agree : ∀ j a, first ≤ j → j ≤ last → f j a = g j a) : eachPixel f first last m = eachPixel g first last m :=
  forPixels_congr m fun j a low high => agree j a low (by omega)

/-- Region commands with the same prologue whose bodies agree on the resolved region agree, errors and stops included
(R170). -/
theorem runRegion_congr_body {readsSrc sBit eBit : Bool} {body body' : Nat → Nat → Memory → Except Fault Memory}
    {s : State} (agree : ∀ first last,
      resolve (effectiveWidth readsSrc s.latch.ops) (rawStart sBit s.latch.ops) (rawEnd eBit s.latch.ops) =
        some (first, last) → body first last s.mem = body' first last s.mem) :
    runRegion readsSrc sBit eBit body s = runRegion readsSrc sBit eBit body' s := by
  unfold runRegion
  split
  · rfl
  · rfl
  · rfl
  · next first last passed => rw [agree first last (prologue_region passed).2]

/-- Blending an opaque color over a readable pixel is writing the color, admitted or not (R151, R177). -/
theorem blendcPixel_of_opaque {l : Launch} {o : OperandRegs} {k : Nat} (m : Memory)
    (readable : admits l .read (o.dst.pixelAddr k) = true) (solid : alphaOf o.color1 = 255#8) :
    blendcPixel l o k m = memWrite l m (o.dst.pixelAddr k) o.color1 := by
  simp only [blendcPixel, memRewrite, memRead_ok.2 ⟨readable, rfl⟩, blendPair_opaque _ solid]

/-- Settles O49: an opaque color is not transparent, and its blend over a pixel is the color (R177). -/
theorem blendcWithAnOpaqueColorIsFill : Obligations.BlendcWithAnOpaqueColorIsFill := by
  intro sBit eBit s solid readable
  have visible : alphaOf s.latch.ops.color1 ≠ 0#8 := by simp [solid]
  rw [exec_eq_runRegion rfl fun _ _ _ => visible]
  exact runRegion_congr_body fun first last region => eachPixel_congr s.mem fun k m low high =>
    blendcPixel_of_opaque m (readable first last region k high low) solid

/-- Settles O50: a source at least as long resolves the same region, and with each source pixel the color both commands paint
the same pixels (R177). -/
theorem blendcIsBlendbufFromAConstantSource : Obligations.BlendcIsBlendbufFromAConstantSource := by
  intro sBit eBit s first last ready longer constant srcReadable dstReadable writable
  have ⟨dstValid, _, region, _⟩ := ready
  have width : effectiveWidth true s.latch.ops = effectiveWidth false s.latch.ops := min_eq_left longer
  have sameRegion : commandRegion (.blendc sBit eBit) s.latch.ops = some (first, last) := by
    rw [← region, commandRegion, commandRegion, usesSrc, usesSrc, width]
    rfl
  obtain ⟨m, run, paints⟩ := blendc_paints ⟨dstValid, nofun, sameRegion, nofun⟩ dstReadable writable
  obtain ⟨m', run', paints'⟩ := blendbuf_paints ready fun k high low =>
    ⟨srcReadable k high low, fun _ => writable k high low, fun _ _ => dstReadable k high low⟩
  refine ⟨_, _, run, run', paints.unique paints' fun k low high => ?_⟩
  rw [constant k ((commandRegion_below region high).trans_le longer)]

end Sys2Proof.Machine

/-! SUPPORT. The scalers of 43_scale.md: the two scale functions as one formula on naturals, the four scaled pixels, and what
a loop over a region paints that rewrites each pixel, alone or by a source pixel of the same index. -/

namespace Sys2Proof.Machine

/-! ### The scale functions -/

/-- The formula of R200 on naturals: down to a share of 255, or up by 256ths with saturation. -/
def scaledValue (k x : Nat) : Nat := if k ≤ 255 then k * x / 255 else min (x + x * (k - 255) / 256) 255

/-- Scaling down never raises a channel, so no lane is cut off (R200). -/
theorem share_le {k x : Nat} (share : k ≤ 255) : k * x / 255 ≤ x := by
  have : k * x ≤ 255 * x := Nat.mul_le_mul_right x share
  omega

theorem toNat_opDown {k : Nat} (share : k ≤ 255) (x : Byte) : (opDown k x).toNat = k * x.toNat / 255 := by
  have fits : k * x.toNat / 255 ≤ 255 := (share_le share).trans (Nat.le_of_lt_succ x.isLt)
  rw [opDown, chan, remapValue_byte, toNat_lane_natCast fits]

/-- The scale and the channel are two factors of one product (R137), so brightness goes down as opacity does. -/
theorem brDown_eq_opDown (x : Byte) (k : Int) : brDown x k = opDown k x := by
  simp only [brDown, opDown, remapValue_from_zero, Int.zero_add, Int.sub_zero, Int.mul_comm]

/-- The common factor 255 of R200's quotient cancels (R137), and the min saturates. -/
theorem toNat_scaleUp {k : Nat} (up : 255 < k) (x : Byte) :
    (scaleUp x k).toNat = min (x.toNat + x.toNat * (k - 255) / 256) 255 := by
  have excess : (k : Int) - 255 = ((k - 255 : Nat) : Int) := by omega
  have gain : remapValue (chan x * (k - 255)) 0 (255 * 256) 0 255 = ((x.toNat * (k - 255) / 256 : Nat) : Int) := by
    rw [chan, excess, ← Nat.cast_mul]
    calc remapValue _ 0 (255 * 256) 0 255 = ((x.toNat * (k - 255) * 255 / (256 * 255) : Nat) : Int) :=
          remapValue_natCast _ (255 * 256) 255
      _ = ((x.toNat * (k - 255) / 256 : Nat) : Int) := by rw [Nat.mul_div_mul_right _ _ (by decide)]
  rw [scaleUp, gain, chan, ← Nat.cast_add, ← Nat.cast_ofNat (R := Int) (n := 255), ← Nat.cast_min,
    toNat_lane_natCast (min_le_right _ _)]

/-- The mask factor is the share that the mask's alpha makes (R200). -/
theorem toNat_maskF (m x : Byte) : (maskF m x).toNat = m.toNat * x.toNat / 255 :=
  toNat_opDown (Nat.le_of_lt_succ m.isLt) x

/-- OPAC and BRIGHT scale a channel alike (R201, R203). -/
theorem brightnessLane_eq_opacityLane (k : BitVec 9) (x : Byte) : brightnessLane k x = opacityLane k x := by
  rw [brightnessLane, opacityLane, brDown_eq_opDown]

theorem toNat_opacityLane (k : BitVec 9) (x : Byte) : (opacityLane k x).toNat = scaledValue k.toNat x.toNat := by
  rw [opacityLane, scaledValue]
  split
  · next share => exact toNat_opDown share x
  · next up => exact toNat_scaleUp (not_le.1 up) x

theorem toNat_brightnessLane (k : BitVec 9) (x : Byte) : (brightnessLane k x).toNat = scaledValue k.toNat x.toNat := by
  rw [brightnessLane_eq_opacityLane, toNat_opacityLane]

/-! ### Properties of the formula -/

theorem scaledValue_down {k : Nat} (share : k ≤ 255) (x : Nat) : scaledValue k x = k * x / 255 := if_pos share

theorem scaledValue_up {k : Nat} (up : 255 < k) (x : Nat) :
    scaledValue k x = min (x + x * (k - 255) / 256) 255 := if_neg up.not_ge

theorem scaledValue_full (x : Nat) : scaledValue 255 x = x := by
  rw [scaledValue_down le_rfl, Nat.mul_div_cancel_left x (by decide)]

/-- Scale 256 gains less than one step of any channel (R205). -/
theorem scaledValue_256 {x : Nat} (channel : x ≤ 255) : scaledValue 256 x = x := by
  rw [scaledValue_up (by decide)]
  omega

theorem scaledValue_zero (x : Nat) : scaledValue 0 x = 0 := by
  rw [scaledValue_down (Nat.zero_le _), Nat.zero_mul, Nat.zero_div]

theorem scaledValue_511 (x : Nat) : scaledValue 511 x = min (2 * x) 255 := by
  rw [scaledValue_up (by decide), Nat.mul_div_cancel x (by decide), ← Nat.two_mul]

/-- Truncation costs a channel one step at scale 254 (R205). -/
theorem scaledValue_254 {x : Nat} (channel : x ≤ 255) : scaledValue 254 x = x - 1 := by
  rw [scaledValue_down (by decide)]
  omega

/-- The formula rises with the scale on each of its two parts, and the channel itself lies between the parts (R205). -/
theorem scaledValue_mono {k k' x : Nat} (le : k ≤ k') (channel : x ≤ 255) : scaledValue k x ≤ scaledValue k' x := by
  by_cases up' : 255 < k'
  · rw [scaledValue_up up']
    by_cases up : 255 < k
    · rw [scaledValue_up up]
      gcongr
    · rw [scaledValue_down (not_lt.1 up)]
      exact (share_le (not_lt.1 up)).trans (le_min (Nat.le_add_right _ _) channel)
  · rw [scaledValue_down (not_lt.1 up'), scaledValue_down (le.trans (not_lt.1 up'))]
    gcongr

/-! ### The scaled pixels -/

@[simp] theorem unpack_opacityPixel (k : BitVec 9) (p : Word) :
    unpack (opacityPixel k p) = { unpack p with a := opacityLane k (unpack p).a } := unpack_pack _

@[simp] theorem unpack_brightnessPixel (k : BitVec 9) (p : Word) :
    unpack (brightnessPixel k p) =
      { a := (unpack p).a, r := brightnessLane k (unpack p).r, g := brightnessLane k (unpack p).g,
        b := brightnessLane k (unpack p).b } := unpack_pack _

@[simp] theorem unpack_maskOpacityPixel (p m : Word) :
    unpack (maskOpacityPixel p m) = { unpack p with a := maskF (unpack m).a (unpack p).a } := unpack_pack _

@[simp] theorem unpack_maskBrightnessPixel (fn : MaskBright) (p m : Word) :
    unpack (maskBrightnessPixel fn p m) =
      { a := (unpack p).a, r := maskBrightLane fn (unpack m).a (unpack p).r,
        g := maskBrightLane fn (unpack m).a (unpack p).g, b := maskBrightLane fn (unpack m).a (unpack p).b } :=
  unpack_pack _

/-- The default MASK_BRIGHT_FN is the mask factor (R204). -/
@[simp] theorem maskBrightLane_standard (m x : Byte) : maskBrightLane .standard m x = maskF m x := rfl

/-- Settles O32: a scaled pixel has the channels it is packed from, each scaled as a natural or kept (R200 to R204). -/
theorem scaledPixelLanes : Obligations.ScaledPixelLanes := by
  refine ⟨fun k p => ?_, fun p m => ?_⟩
  · rw [unpack_opacityPixel, unpack_brightnessPixel]
    exact ⟨toNat_opacityLane k _, rfl, rfl, rfl, rfl, toNat_brightnessLane k _, toNat_brightnessLane k _,
      toNat_brightnessLane k _⟩
  · simp only [unpack_maskOpacityPixel, unpack_maskBrightnessPixel, maskBrightLane_standard, toNat_maskF, implies_true,
      and_self]

/-- A scale that keeps every channel keeps every pixel, as opacity and as brightness. -/
theorem scaled_pixel_of_identity {k : BitVec 9} (keeps : ∀ x : Byte, scaledValue k.toNat x.toNat = x.toNat) (p : Word) :
    opacityPixel k p = p ∧ brightnessPixel k p = p := by
  have kept (x : Byte) : opacityLane k x = x := BitVec.eq_of_toNat_eq ((toNat_opacityLane k x).trans (keeps x))
  simp only [opacityPixel, brightnessPixel, brightnessLane_eq_opacityLane, kept]
  exact ⟨pack_unpack p, pack_unpack p⟩

/-- Settles O33: each property is one of the formula, and both commands scale by the one formula (R205). -/
theorem scaleFunctionProperties : Obligations.ScaleFunctionProperties := by
  have channel (x : Byte) : x.toNat ≤ 255 := Nat.le_of_lt_succ x.isLt
  refine ⟨fun p => ?_, fun x => ?_, by decide, fun x k k' le => ?_⟩
  · obtain ⟨opacity, brightness⟩ := scaled_pixel_of_identity (k := 255#9) (fun x => scaledValue_full x.toNat) p
    obtain ⟨opacity', brightness'⟩ := scaled_pixel_of_identity (k := 256#9) (fun x => scaledValue_256 (channel x)) p
    exact ⟨opacity, opacity', brightness, brightness'⟩
  · simp only [brightnessLane_eq_opacityLane]
    have zero : opacityLane 0#9 x = 0#8 :=
      BitVec.eq_of_toNat_eq ((toNat_opacityLane _ x).trans (scaledValue_zero x.toNat))
    have double : (opacityLane 511#9 x).toNat = min (2 * x.toNat) 255 :=
      (toNat_opacityLane _ x).trans (scaledValue_511 x.toNat)
    exact ⟨zero, zero, double, double, fun _ => (toNat_opacityLane _ x).trans (scaledValue_254 (channel x))⟩
  · simp only [brightnessLane_eq_opacityLane, toNat_opacityLane, and_self]
    exact scaledValue_mono le (channel x)

/-! ### Rewriting the pixels of a region -/

section
variable {l : Launch} {first last : Nat} (m : Memory) (ordered : first ≤ last)
include ordered

/-- A loop that reads each pixel and writes back its f paints the region with f of what the pixels held (R74). -/
theorem eachPixel_memRewrite_paints {d : Descriptor} (f : Word → Word) (readable : admitsPixels l .read d first last)
    (writable : admitsPixels l .write d first last) :
    ∃ m', eachPixel (fun k a => memRewrite l a (d.pixelAddr k) f) first last m = .ok m' ∧
      PaintsRegion l.byteOrder d first last (fun k => f (m.readWord l.byteOrder (d.pixelAddr k))) m m' := by
  refine eachPixel_paints (memRewrite_writesOwnPixel f) ordered fun k a low high same => ?_
  refine ⟨_, memRewrite_ok.2 ⟨readable k high low, writable k high low, rfl⟩, ?_⟩
  rw [Memory.readWord_writeWord_self, readWord_of_untouched same]

/-- A loop that writes f of each destination pixel and the source pixel of its index paints the region with f of what both
held before the loop: the destination pixels it has written lie apart from that source pixel, also where both buffers have
one base (R74, R79). -/
theorem eachPixel_memCombine_paints {o : OperandRegs} (f : Word → Word → Word)
    (apart : partialOverlap o first last = false) (readable : admitsPixels l .read o.dst first last)
    (srcReadable : admitsPixels l .read o.src first last) (writable : admitsPixels l .write o.dst first last) :
    ∃ m', eachPixel (fun k a => memCombine l a (o.dst.pixelAddr k) (o.src.pixelAddr k) f) first last m = .ok m' ∧
      PaintsRegion l.byteOrder o.dst first last
        (fun k => f (m.readWord l.byteOrder (o.dst.pixelAddr k)) (m.readWord l.byteOrder (o.src.pixelAddr k))) m m' := by
  refine eachPixel_paints (memCombine_writesOwnPixel o.src.pixelAddr f) ordered fun k a low high same => ?_
  have source : a.readWord l.byteOrder (o.src.pixelAddr k) = m.readWord l.byteOrder (o.src.pixelAddr k) :=
    Memory.readWord_congr _ _ _ _ fun n byte => same _ (source_byte_apart apart high byte)
  refine ⟨_, memCombine_ok.2 ⟨readable k high low, srcReadable k high low, writable k high low, rfl⟩, ?_⟩
  rw [Memory.readWord_writeWord_self, readWord_of_untouched same, source]

end

/-! ### The four scale commands -/

section
variable {sBit eBit : Bool} {s : State} {first last : Nat}

theorem opac_paints {k : BitVec 9} (ready : RegionReady (.opac sBit eBit k) s first last)
    (readable : admitsPixels s.launch .read s.latch.ops.dst first last)
    (writable : admitsPixels s.launch .write s.latch.ops.dst first last) :
    ExecPaints (.opac sBit eBit k) s first last fun i => opacityPixel k (s.pixel s.latch.ops.dst i) :=
  execPaints_of_body rfl nofun ready (eachPixel_memRewrite_paints s.mem ready.ordered _ readable writable)

theorem bright_paints {k : BitVec 9} (ready : RegionReady (.bright sBit eBit k) s first last)
    (readable : admitsPixels s.launch .read s.latch.ops.dst first last)
    (writable : admitsPixels s.launch .write s.latch.ops.dst first last) :
    ExecPaints (.bright sBit eBit k) s first last fun i => brightnessPixel k (s.pixel s.latch.ops.dst i) :=
  execPaints_of_body rfl nofun ready (eachPixel_memRewrite_paints s.mem ready.ordered _ readable writable)

theorem opacm_paints (ready : RegionReady (.opacm sBit eBit) s first last)
    (readable : admitsPixels s.launch .read s.latch.ops.dst first last)
    (srcReadable : admitsPixels s.launch .read s.latch.ops.src first last)
    (writable : admitsPixels s.launch .write s.latch.ops.dst first last) :
    ExecPaints (.opacm sBit eBit) s first last
      fun i => maskOpacityPixel (s.pixel s.latch.ops.dst i) (s.pixel s.latch.ops.src i) := by
  have ⟨_, _, _, apart⟩ := ready
  exact execPaints_of_body rfl nofun ready
    (eachPixel_memCombine_paints s.mem ready.ordered _ (apart rfl) readable srcReadable writable)

theorem brightm_paints (ready : RegionReady (.brightm sBit eBit) s first last)
    (readable : admitsPixels s.launch .read s.latch.ops.dst first last)
    (srcReadable : admitsPixels s.launch .read s.latch.ops.src first last)
    (writable : admitsPixels s.launch .write s.latch.ops.dst first last) :
    ExecPaints (.brightm sBit eBit) s first last
      fun i => maskBrightnessPixel s.launch.maskBright (s.pixel s.latch.ops.dst i) (s.pixel s.latch.ops.src i) := by
  have ⟨_, _, _, apart⟩ := ready
  exact execPaints_of_body rfl nofun ready
    (eachPixel_memCombine_paints s.mem ready.ordered _ (apart rfl) readable srcReadable writable)

end

/-- Settles O39: OPAC rewrites each pixel of its region (R201). -/
theorem opacScalesAlphaOverRegion : Obligations.OpacScalesAlphaOverRegion :=
  fun _ _ _ _ _ _ ready readable writable => (opac_paints ready readable writable).completes

/-- Settles O40: OPACM rewrites each pixel of its region by the mask pixel of its index (R202). -/
theorem opacmScalesAlphaByTheMask : Obligations.OpacmScalesAlphaByTheMask :=
  fun _ _ _ _ _ ready readable srcReadable writable => (opacm_paints ready readable srcReadable writable).completes

/-- Settles O41: BRIGHT rewrites each pixel of its region (R203). -/
theorem brightScalesColorsOverRegion : Obligations.BrightScalesColorsOverRegion :=
  fun _ _ _ _ _ _ ready readable writable => (bright_paints ready readable writable).completes

/-- Settles O42: BRIGHTM rewrites each pixel of its region by the mask pixel of its index, with the launch's function
(R204). -/
theorem brightmScalesColorsByTheMask : Obligations.BrightmScalesColorsByTheMask :=
  fun _ _ _ _ _ ready readable srcReadable writable => (brightm_paints ready readable srcReadable writable).completes

end Sys2Proof.Machine

/-! SUPPORT. FILL (44_fill.md): what it paints, and that scaling the filled region by an identity scale leaves it filled. -/

namespace Sys2Proof.Machine

/-! ### The fill -/

section
variable {sBit eBit : Bool} {s : State} {first last : Nat}

/-- FILL asks `Mem` for writes alone and leaves its color in each of its pixels (R220). -/
theorem fill_paints (ready : RegionReady (.fill sBit eBit) s first last)
    (writable : admitsPixels s.launch .write s.latch.ops.dst first last) :
    ExecPaints (.fill sBit eBit) s first last fun _ => s.latch.ops.color1 :=
  execPaints_of_body rfl nofun ready <|
    eachPixel_paints (memWrite_writesOwnPixel _) ready.ordered fun k _ low high _ =>
      ⟨_, memWrite_ok.2 ⟨writable k high low, rfl⟩, Memory.readWord_writeWord_self _ _ _ _⟩

/-- Settles O43: every pixel of the region is one write of FILL, whatever the color's alpha (R220). -/
theorem fillWritesTheColorOverRegion : Obligations.FillWritesTheColorOverRegion :=
  fun _ _ _ _ _ ready writable => (fill_paints ready writable).completes

/-! ### Identity scales -/

/-- Both scales that keep every channel keep every pixel, as opacity and as brightness (R205). -/
theorem scaled_pixel_of_mem_identities {k : BitVec 9} (identity : k ∈ [255#9, 256#9]) (p : Word) :
    opacityPixel k p = p ∧ brightnessPixel k p = p := by
  obtain ⟨opacity, opacity', brightness, brightness'⟩ := scaleFunctionProperties.1 p
  obtain rfl | rfl : k = 255#9 ∨ k = 256#9 := by simpa using identity
  · exact ⟨opacity, brightness⟩
  · exact ⟨opacity', brightness'⟩

section
variable {k : BitVec 9} (identity : k ∈ [255#9, 256#9])
  (readable : admitsPixels s.launch .read s.latch.ops.dst first last)
  (writable : admitsPixels s.launch .write s.latch.ops.dst first last)
include identity readable writable

/-- BRIGHT by an identity scale paints its region with the pixels it finds there (R203, R205). -/
theorem bright_repaints (ready : RegionReady (.bright sBit eBit k) s first last) :
    ExecPaints (.bright sBit eBit k) s first last (s.pixel s.latch.ops.dst) := by
  simpa only [scaled_pixel_of_mem_identities identity] using bright_paints ready readable writable

/-- OPAC by an identity scale paints its region with the pixels it finds there (R201, R205). -/
theorem opac_repaints (ready : RegionReady (.opac sBit eBit k) s first last) :
    ExecPaints (.opac sBit eBit k) s first last (s.pixel s.latch.ops.dst) := by
  simpa only [scaled_pixel_of_mem_identities identity] using opac_paints ready readable writable

end

end

/-! ### One command after another -/

/-- Painting a region with the pixels found there keeps the painting that they come from. -/
theorem PaintsRegion.repaint {order : ByteOrder} {d : Descriptor} {first last : Nat} {g : Nat → Word} {m m' m'' : Memory}
    (paints : PaintsRegion order d first last g m m')
    (repaints : PaintsRegion order d first last (fun i => m'.readWord order (d.pixelAddr i)) m' m'') :
    PaintsRegion order d first last g m m'' where
  pixel i low high := (repaints.pixel i low high).trans (paints.pixel i low high)
  rest a outside := (repaints.rest a outside).trans (paints.rest a outside)

/-- The state in which the word v has been issued after a command that ended OK with memory m (R24, R43). -/
abbrev State.issuedAfter (s : State) (m : Memory) (v : Word) : State := (s.doneFrom .ok m).accept v

/-- A command that has completed leaves the block IDLE, so the next CMD write is accepted (R24, R43). -/
theorem writeSlot_CMD_doneFrom (s : State) (m : Memory) (v : Word) :
    writeSlot .CMD v (s.doneFrom .ok m) = s.issuedAfter m v :=
  writeSlot_CMD_idle v rfl

/-- Settles O51: each acceptance latches the operand registers, so all three commands have FILL's region; FILL paints it with
the color, and the two identity scales paint it with what they find (R221). -/
theorem fillThenIdentityScalesIsFill : Obligations.FillThenIdentityScalesIsFill := by
  intro sBit eBit k k' s first last identity identity' unchanged ready readable writable
  obtain ⟨m₁, fillRun, filled⟩ := fill_paints ready writable
  unfold RegionReady at ready
  rw [← unchanged] at ready readable writable filled ⊢
  obtain ⟨m₂, brightRun, scaled⟩ := bright_repaints identity (s := s.issuedAfter m₁ (encode (.bright sBit eBit k)))
    readable writable ready
  obtain ⟨m₃, opacRun, scaled'⟩ := opac_repaints identity'
    (s := (s.issuedAfter m₁ (encode (.bright sBit eBit k))).issuedAfter m₂ (encode (.opac sBit eBit k')))
    readable writable ready
  rw [← writeSlot_CMD_doneFrom] at brightRun opacRun
  obtain ⟨pixel, rest⟩ := (filled.repaint scaled).repaint scaled'
  exact ⟨_, _, _, fillRun, brightRun, opacRun, pixel, rest⟩

end Sys2Proof.Machine

/-! SUPPORT. Errors and waiting (60_exceptions.md): which outcome a completed command has and which descriptor it comes from,
and the turn of an IDLE block. -/

namespace Sys2Proof.Machine

/-! ### Where an error comes from -/

/-- A descriptor is invalid exactly where one of the three conditions of R62 fails. -/
theorem Descriptor.invalid_iff (d : Descriptor) :
    d.valid = false ↔ d.base = 0#32 ∨ d.base.toNat % 4 ≠ 0 ∨ 2 ^ 32 < d.base.toNat + d.len.toNat := by
  rw [← Bool.not_eq_true, d.valid_iff, not_and_or, not_and_or, not_not, not_le]

/-- The prologue raises only what the argument checks raise (R170, R232). -/
theorem prologue_raise {readsSrc sBit eBit : Bool} {o : OperandRegs} {e : ErrCode}
    (h : prologue readsSrc sBit eBit o = .raise e) : argumentChecks readsSrc o = some e := by
  obtain ⟨e', fails, ends⟩ | ⟨-, -, ends⟩ | ⟨_, _, -, -, -, ends⟩ | ⟨_, _, -, -, -, ends⟩ :=
    prologue_cases readsSrc sBit eBit o
  all_goals rw [ends] at h; cases h
  exact fails

/-- A command that completes has outcome OK, or the error of an argument check that it makes (R230, R232). -/
theorem exec_outcome {i : Instr} {s t : State} (h : exec i s = .next t) :
    t.status.err = .ok ∨ (usesDst i = true ∧ argumentChecks (usesSrc i) s.latch.ops = some t.status.err) := by
  obtain ⟨-, v, run⟩ | ⟨-, run⟩ | ⟨writes, run⟩ := exec_shape i s.latch.ops
  all_goals rw [run s rfl] at h
  · cases h
    exact .inl rfl
  · cases h
    exact .inl rfl
  · obtain ⟨e, raised, ends⟩ | ⟨-, ends⟩ | ⟨-, ends⟩ | ⟨_, _, r, -, -, ends⟩ | ⟨_, _, m, -, -, ends⟩ :=
      runRegion_cases (usesSrc i) (sBitOf i) (eBitOf i) (regionBody i s.launch s.latch.ops) s
    all_goals rw [ends] at h; cases h
    · exact .inr ⟨writes, prologue_raise raised⟩
    · exact .inl rfl
    · exact .inl rfl

/-- The three outcomes of a command that completes, each error with its invalid descriptor (R230, R232). -/
theorem exec_outcome_cases {i : Instr} {s t : State} (h : exec i s = .next t) :
    t.status.err = .ok ∨
    (t.status.err = .argDst ∧ usesDst i = true ∧ s.latch.ops.dst.valid = false) ∨
    (t.status.err = .argSrc ∧ usesSrc i = true ∧ s.latch.ops.src.valid = false) := by
  obtain ok | ⟨writes, fails⟩ := exec_outcome h
  · exact .inl ok
  · obtain ⟨invalid, err⟩ | ⟨-, reads, invalid, err⟩ := argumentChecks_some.1 fails
    · exact .inr (.inl ⟨err, writes, invalid⟩)
    · exact .inr (.inr ⟨err, reads, invalid⟩)

/-! ### The statements about errors and waiting -/

/-- Settles O45: the checks come before everything else a command with a destination does, and no other source of an error is
left once a word has decoded (R62, R230, R232, R234). -/
theorem argumentErrors : Obligations.ArgumentErrors := by
  refine ⟨fun base len => ?_, fun i s => ⟨fun notBlend notBlendl invalid => ?_, ?_, fun t h => ?_⟩⟩
  · rw [← Bool.not_eq_false, Descriptor.invalid_iff]
  · have writes : usesDst i = true := Bool.eq_true_of_not_eq_false fun single =>
      (usesDst_false single).elim notBlend fun ⟨w, blendl⟩ => notBlendl w blendl
    exact exec_of_argumentChecks_some writes (argumentChecks_some.2 (.inl ⟨s.latch.ops.dst.invalid_iff.2 invalid, rfl⟩))
  · intro sBit eBit listed valid invalid
    have reads : usesSrc i = true := by
      simp only [List.mem_cons, List.not_mem_nil, or_false] at listed
      obtain rfl | rfl | rfl := listed
      all_goals rfl
    have dstValid : s.latch.ops.dst.valid = true :=
      Bool.eq_true_of_not_eq_false (mt s.latch.ops.dst.invalid_iff.1 valid)
    exact exec_of_argumentChecks_some (usesDst_of_usesSrc reads).1
      (argumentChecks_some.2 (.inr ⟨dstValid, reads, s.latch.ops.src.invalid_iff.2 invalid, rfl⟩))
  · obtain err | ⟨err, writes, invalid⟩ | ⟨err, reads, invalid⟩ := exec_outcome_cases h
    all_goals rw [err]
    · exact ⟨nofun, nofun, nofun⟩
    · exact ⟨fun _ => ⟨writes, s.latch.ops.dst.invalid_iff.1 invalid⟩, nofun, nofun⟩
    · exact ⟨nofun, fun _ => ⟨reads, s.latch.ops.src.invalid_iff.1 invalid⟩, nofun⟩

/-- The turn of an IDLE block leaves the state as it is (R242, R260). -/
theorem blockTurn_idle {s : State} (idle : s.status.busy = false) : blockTurn s = .next s := by
  simp only [blockTurn, idle, Bool.false_eq_true, if_false]

/-- Settles O11: the step is the block's turn, and taking that turn from the script does not make the block BUSY (R240,
R242). -/
theorem anIdleBlockWaits : Obligations.AnIdleBlockWaits := by
  intro s next idle
  obtain ⟨l, taken⟩ := s.turnTaken_eq
  rw [step_of_blockNext next, taken]
  exact blockTurn_idle idle

end Sys2Proof.Machine

/-! SUPPORT. Reset (70_reset_and_hazards.md): which memory a reset leaves of a command that it discards, by what that command
would have answered, and what a command issued straight after reset gives. -/

namespace Sys2Proof.Machine

/-! ### The bytes that draws leave alone -/

/-- Draws leave alone every byte that lies outside each pixel they give a word to (R67, R261). -/
theorem drawPixels_read_other {order : ByteOrder} {d : Descriptor} {value : PixelDraw → Option Word}
    {draws : List PixelDraw} {a : Nat} (m : Memory)
    (apart : ∀ p v, value p = some v → d.valid = true → p.index < d.count → d.outside p.index p.index a) :
    (drawPixels order d value draws m).read a = m.read a :=
  drawPixels_keeps (fun b => b.read a = m.read a)
    (fun p _ v b gives valid below same =>
      (Memory.read_writeWord_other order b _ a v (apart p v gives valid below)).trans same)
    rfl

/-! ### The memory of a discarded command -/

theorem executeLatched_keeps_launch {s u : State} (run : executeLatched s = .next u) : u.launch = s.launch := by
  obtain ⟨m, v, e, rfl⟩ := executeLatched_frame run
  rfl

section
variable {s : State} (draws : List PixelDraw)

/-- Each draw of a command that would complete gives the pixel that it would leave (R261). -/
theorem discardedMemory_of_next {u : State} (run : executeLatched s = .next u) :
    discardedMemory draws s =
      drawPixels s.launch.byteOrder s.latch.ops.dst (fun p => some (u.pixel s.latch.ops.dst p.index)) draws s.mem := by
  simp only [discardedMemory, run, State.pixel, executeLatched_keeps_launch run]

/-- A stuck command has written nothing (R69). -/
theorem discardedMemory_of_stuck (run : executeLatched s = .fault .stuck) : discardedMemory draws s = s.mem := by
  simp only [discardedMemory, run]

/-- The draws of a partial overlap give words of their own (R79, R261). -/
theorem discardedMemory_of_overlap (run : executeLatched s = .fault (.undefined .partialOverlap)) :
    discardedMemory draws s = drawPixels s.launch.byteOrder s.latch.ops.dst (overlapDraw s) draws s.mem := by
  simp only [discardedMemory, run]

/-! ### A command that would complete -/

/-- A drawn pixel holds what the discarded command would have left, and any other pixel what it held (R261). -/
theorem discardedMemory_pixel {u : State} {k : Nat} (run : executeLatched s = .next u) (below : k < s.latch.ops.dst.count)
    (valid : s.latch.ops.dst.valid = true) :
    (discardedMemory draws s).readWord s.launch.byteOrder (s.latch.ops.dst.pixelAddr k) =
      if k ∈ draws.map PixelDraw.index then u.pixel s.latch.ops.dst k else s.pixel s.latch.ops.dst k := by
  rw [discardedMemory_of_next draws run]
  split
  · next drawn => exact drawPixels_drawn _ _ valid below (.inl (List.mem_map.1 drawn)) (fun p _ at_k => by rw [at_k])
  · next undrawn =>
    exact drawPixels_undrawn _ _ _ _ (fun p listed at_k => undrawn (List.mem_map.2 ⟨p, listed, at_k⟩))

/-- Bytes outside the target, and every byte where the target is invalid, are as they were (R261). -/
theorem discardedMemory_outside_target {u : State} {a : Nat} (run : executeLatched s = .next u)
    (outside : s.latch.ops.dst.valid = false ∨ a < s.latch.ops.dst.base.toNat ∨
      s.latch.ops.dst.pixelAddr s.latch.ops.dst.count ≤ a) :
    (discardedMemory draws s).read a = s.mem.read a := by
  rw [discardedMemory_of_next draws run]
  refine drawPixels_read_other s.mem fun p v _ valid below => ?_
  obtain invalid | range := outside
  · rw [valid] at invalid
    cases invalid
  · unfold Descriptor.outside Descriptor.pixelAddr at *
    omega

/-! ### A partial overlap -/

/-- A command that is found to overlap has passed its argument checks (R170, R234). -/
theorem exec_overlap_valid {i : Instr} (overlaps : exec i s = .fault (.undefined .partialOverlap)) :
    s.latch.ops.dst.valid = true := by
  have writes : usesDst i = true := by
    obtain ⟨-, v, run⟩ | ⟨dst, -⟩ | ⟨src, -⟩ | ⟨dst, -⟩ := exec_cases i s
    · rw [run] at overlaps
      cases overlaps
    · exact dst
    · exact (usesDst_of_usesSrc src).1
    · exact dst
  cases checks : argumentChecks (usesSrc i) s.latch.ops with
  | none => exact (argumentChecks_none.1 checks).1
  | some e =>
    rw [exec_of_argumentChecks_some writes checks] at overlaps
    cases overlaps

/-- A pixel that no draw names holds what it held (R261). -/
theorem discardedMemory_overlap_undrawn {k : Nat} (overlaps : executeLatched s = .fault (.undefined .partialOverlap))
    (undrawn : ∀ p ∈ draws, p.index ≠ k) :
    (discardedMemory draws s).readWord s.launch.byteOrder (s.latch.ops.dst.pixelAddr k) = s.pixel s.latch.ops.dst k := by
  rw [discardedMemory_of_overlap draws overlaps]
  exact drawPixels_undrawn _ _ _ _ undrawn

theorem executeLatched_of_decode {i : Instr} (legal : decode s.latch.cmd = .ok i) : executeLatched s = exec i s := by
  simp only [executeLatched, legal]

section
variable {i : Instr} {first last : Nat} (legal : decode s.latch.cmd = .ok i)
  (region : commandRegion i s.latch.ops = some (first, last))
include legal region

/-- A draw gives its own word to a pixel of the resolved region whose write `Mem` admits, and none to any other (R79). -/
theorem overlapDraw_eq_some_iff {p : PixelDraw} {v : Word} :
    overlapDraw s p = some v ↔
      (first ≤ p.index ∧ p.index ≤ last ∧ admits s.launch .write (s.latch.ops.dst.pixelAddr p.index) = true) ∧
        p.value = v := by
  simp only [overlapDraw, legal, region, Option.ite_none_right_eq_some, Option.some.injEq]

variable (overlaps : executeLatched s = .fault (.undefined .partialOverlap))
include overlaps

/-- A reset that discards a partial overlap changes no byte outside the resolved region (R261). -/
theorem discardedMemory_outside_overlap {a : Nat} (outside : s.latch.ops.dst.outside first last a) :
    (discardedMemory draws s).read a = s.mem.read a := by
  rw [discardedMemory_of_overlap draws overlaps]
  refine drawPixels_read_other s.mem fun p v gives _ _ => ?_
  obtain ⟨⟨low, high, -⟩, -⟩ := (overlapDraw_eq_some_iff legal region).1 gives
  unfold Descriptor.outside Descriptor.pixelAddr at *
  omega

/-- A pixel of the resolved region whose write `Mem` admits holds the word of its one draw (R79, R261). -/
theorem discardedMemory_overlap_drawn {p : PixelDraw} (listed : p ∈ draws) (low : first ≤ p.index)
    (high : p.index ≤ last) (admitted : admits s.launch .write (s.latch.ops.dst.pixelAddr p.index) = true)
    (only : ∀ q ∈ draws, q.index = p.index → q = p) :
    (discardedMemory draws s).readWord s.launch.byteOrder (s.latch.ops.dst.pixelAddr p.index) = p.value := by
  have valid := exec_overlap_valid (executeLatched_of_decode legal ▸ overlaps)
  rw [discardedMemory_of_overlap draws overlaps]
  refine drawPixels_drawn _ _ valid (commandRegion_below region high) (.inl ⟨p, listed, rfl⟩) fun q drawn at_p => ?_
  obtain rfl := only q drawn at_p
  exact (overlapDraw_eq_some_iff legal region).2 ⟨⟨low, high, admitted⟩, rfl⟩

end
end

/-! ### The statement about the reset signal -/

/-- A reset of an IDLE block leaves memory alone (R260). -/
theorem hostTurn_reset_idle (draws : List PixelDraw) (junk : Latch) {s : State} (idle : s.status.busy = false) :
    hostTurn (.reset draws junk) s = .next (s.resetRegisters junk) := by
  simp only [hostTurn, hostReset, idle, Bool.false_eq_true, if_false]
  rfl

/-- A reset of a BUSY block leaves the memory of the command it discards (R260, R261). -/
theorem hostTurn_reset_busy (draws : List PixelDraw) (junk : Latch) {s : State} (busy : s.status.busy = true) :
    hostTurn (.reset draws junk) s = .next ((s.withMem (discardedMemory draws s)).resetRegisters junk) := by
  simp only [hostTurn, hostReset, busy, if_true]

/-- A pixel after a reset is read from the memory that the reset leaves. -/
theorem State.pixel_resetRegisters_withMem (junk : Latch) (m : Memory) (s : State) (d : Descriptor) (k : Nat) :
    ((s.withMem m).resetRegisters junk).pixel d k = m.readWord s.launch.byteOrder (d.pixelAddr k) := rfl

/-- Settles O9: the reset move clears the registers, and memory is that of the discarded command, read by what the command
would have answered (R69, R79, R260, R261). -/
theorem resetSignalClearsAndDrawsPixels : Obligations.ResetSignalClearsAndDrawsPixels := by
  intro draws junk s
  cases phase : s.status.busy with
  | false => exact ⟨s.resetRegisters junk, hostTurn_reset_idle draws junk phase, rfl, fun _ => rfl, nofun, nofun, nofun⟩
  | true =>
    refine ⟨_, hostTurn_reset_busy draws junk phase, rfl, nofun, fun _ => discardedMemory_of_stuck draws,
      fun _ u run => ?_, fun _ overlaps i first last legal region => ?_⟩
    all_goals simp only [State.pixel_resetRegisters_withMem]
    · exact ⟨fun k => discardedMemory_pixel draws run, fun a => discardedMemory_outside_target draws run⟩
    · exact ⟨fun a => discardedMemory_outside_overlap draws legal region overlaps,
        fun k _ _ => discardedMemory_overlap_undrawn draws overlaps,
        fun p => discardedMemory_overlap_drawn draws legal region overlaps⟩

/-! ### A command straight after reset -/

/-- A cross-fade between equal channels stays there, whatever the weight (R153). -/
@[simp] theorem linearLane_same (w c : Byte) : linearLane w c c = c := by
  obtain ⟨-, above, below⟩ := linearLane_between w c c
  exact BitVec.eq_of_toNat_eq (le_antisymm (below.trans_eq (max_self _)) ((min_self _).symm.trans_le above))

theorem blendLinear_same (c : Word) (w : Byte) : blendLinear c c w = c := by
  simp only [blendLinear, linearLane_same]
  exact pack_unpack c

/-- The step after reset and an accepted word is the block's turn (R24, R240). -/
theorem step_reset_withCommand (w : Word) :
    step (State.reset.withCommand w) = blockTurn (State.reset.withCommand w) := rfl

/-- The step after reset and the word of a command runs that command (R43, R97). -/
theorem step_reset_encode (i : Instr) :
    step (State.reset.withCommand (encode i)) = exec i (State.reset.withCommand (encode i)) :=
  (step_reset_withCommand _).trans (blockTurn_runs rfl (decodeOfEncodeIsTheCommand i))

/-- Settles O8: both colors are 0 after reset, so both blends give 0 (R151, R153); the null destination fails the argument
checks (R62, R232); and an illegal word completes as such (R98). -/
theorem commandsStraightAfterReset : Obligations.CommandsStraightAfterReset := by
  refine ⟨⟨_, step_reset_encode .blend, blendPair_transparent (c2 := 0#32) 0#32 rfl, rfl, rfl⟩,
    fun w => ⟨_, step_reset_encode (.blendl w), blendLinear_same 0#32 w, rfl, rfl⟩,
    fun i writes => ?_, fun w illegal => ?_⟩
  · have null : (State.reset.withCommand (encode i)).latch.ops.dst.valid = false :=
      (Descriptor.invalid_iff _).2 (.inl rfl)
    exact ⟨_, (step_reset_encode i).trans (exec_of_argumentChecks_some writes (argumentChecks_some.2 (.inl ⟨null, rfl⟩))),
      rfl, rfl⟩
  · obtain ⟨-, -, completes⟩ := illegalWordsAndTheirCompletion
    exact ⟨_, (step_reset_withCommand w).trans (completes _ rfl illegal), rfl, rfl⟩

end Sys2Proof.Machine
